-- ==== Sys2Proof/Word.lean ====
section
/-! DEFINITION. The word types of the machine (spec 00_scope.md R5, R6, R7). -/

namespace Sys2Proof

/-- A nibble, the machine's natural word: the accumulator, a RAM cell, a port, an opcode (R5, R11). -/
abbrev Nibble := BitVec 4

/-- A 1-bit flag register: `C` or `Z` (R5, R28). -/
abbrev Flag := BitVec 1

/-- A 12-bit RAM address, the width of `PC` (R5, R50, R52). -/
abbrev Addr := BitVec 12

/-- `N_RAM`, the number of RAM cells (R5, R50). -/
abbrev ramCells : Nat := 4096

end Sys2Proof
end

