-- ==== Sys2Proof/Machine/Flags.lean ====
section
/-! DEFINITION. The arithmetic laws: 4-bit unsigned addition, comparison and NOR, with their flags
(spec 43_alu.md R145, R146, R147; 42_transfer.md R133). -/

namespace Sys2Proof.Machine

/-- `zext_5(a) + zext_5(b)`, a value in 0..30; the old `C` takes no part (R145). -/
def sum5 (a b : Nibble) : BitVec 5 := a.setWidth 5 + b.setWidth 5

/-- `sum[3:0]` (R145). -/
def addResult (a b : Nibble) : Nibble := (sum5 a b).extractLsb' 0 4

/-- `sum[4]`, the carry out of bit 3 (R145). -/
def addCarry (a b : Nibble) : Flag := (sum5 a b).extractLsb' 4 1

/-- 1 exactly when a 4-bit result is 0 (R140, R145, R147). -/
def zeroFlag (r : Nibble) : Flag := if r = 0#4 then 1#1 else 0#1

/-- The borrow of `a - b`: 1 exactly when `b > a`, unsigned (R146). -/
def cmpBorrow (a b : Nibble) : Flag := if a.toNat < b.toNat then 1#1 else 0#1

/-- 1 exactly when `a = b` (R146). -/
def cmpEqual (a b : Nibble) : Flag := if a = b then 1#1 else 0#1

/-- `~(a | b)` on 4 bits (R147). -/
def norResult (a b : Nibble) : Nibble := ~~~(a ||| b)

/-- `imm[0]`; bits 3:1 are ignored (R133). -/
def stcCarry (imm : Nibble) : Flag := imm.extractLsb' 0 1

end Sys2Proof.Machine
end

