-- ==== Sys2Proof/Syntax.lean ====
section
/-! DEFINITION. The fifteen opcode variants, their formats and the instruction type (spec 30_encoding.md R70-R76). -/

namespace Sys2Proof

/-- The three fetch templates: no operand, 1-nibble immediate, 3-nibble direct address (R11, R102). -/
inductive Template where
  | n
  | i
  | d
deriving DecidableEq, Repr

/-- The fifteen opcode kinds, in catalogue order (R1, R11, R77). -/
inductive Variant where
  | nop | jmp | jc | jz | ld | ldi | st | stc | inp | outp | nor | add | addi | cmp | cmpi
deriving DecidableEq, Repr

/-- Every variant, in catalogue order. -/
def Variant.all : List Variant :=
  [.nop, .jmp, .jc, .jz, .ld, .ldi, .st, .stc, .inp, .outp, .nor, .add, .addi, .cmp, .cmpi]

/-- The operand mode of each mnemonic (R74). -/
def Variant.template : Variant → Template
  | .nop => .n
  | .jmp | .jc | .jz | .ld | .st | .nor | .add | .cmp => .d
  | .ldi | .stc | .inp | .outp | .addi | .cmpi => .i

/-- An instruction with its operands: one constructor per row of spec/opcode_table.json. A direct
address is 12 bits and an immediate 4 bits, so every term is a legal instruction (R79). -/
inductive Instr where
  /-- NOP (R120). -/
  | nop
  /-- JMP addr (R121). -/
  | jmp (addr : Addr)
  /-- JC addr (R122). -/
  | jc (addr : Addr)
  /-- JZ addr (R123). -/
  | jz (addr : Addr)
  /-- LD addr (R130). -/
  | ld (addr : Addr)
  /-- LDI imm (R131). -/
  | ldi (imm : Nibble)
  /-- ST addr (R132). -/
  | st (addr : Addr)
  /-- STC imm (R133). -/
  | stc (imm : Nibble)
  /-- IN port (R134). -/
  | inp (port : Nibble)
  /-- OUT port (R135). -/
  | outp (port : Nibble)
  /-- NOR addr (R140). -/
  | nor (addr : Addr)
  /-- ADD addr (R141). -/
  | add (addr : Addr)
  /-- ADDI imm (R142). -/
  | addi (imm : Nibble)
  /-- CMP addr (R143). -/
  | cmp (addr : Addr)
  /-- CMPI imm (R144). -/
  | cmpi (imm : Nibble)
deriving DecidableEq, Repr

/-- The variant an instruction belongs to. -/
def Instr.variant : Instr → Variant
  | .nop => .nop
  | .jmp _ => .jmp
  | .jc _ => .jc
  | .jz _ => .jz
  | .ld _ => .ld
  | .ldi _ => .ldi
  | .st _ => .st
  | .stc _ => .stc
  | .inp _ => .inp
  | .outp _ => .outp
  | .nor _ => .nor
  | .add _ => .add
  | .addi _ => .addi
  | .cmp _ => .cmp
  | .cmpi _ => .cmpi

end Sys2Proof
end

