-- ==== Sys2Proof/Config.lean ====
section
/-! DEFINITION. The parameters the spec asks a model to take as arguments (spec 00_scope.md R5). The values the
spec gives them by default are `opcodeMap` in Sys2Proof/Decode.lean and `params` in Sys2Proof/Machine/Params.lean. -/

namespace Sys2Proof

/-- What a pulse that is not a settle pulse does (R103-R106): latch one operand cell, or perform one of
the execute, flags and pc phases. -/
inductive PulseAction where
  | fetchImm
  | fetchN1
  | fetchN2
  | fetchN3
  | execute
  | flags
  | pc
deriving DecidableEq, Repr

/-- The implementation parameters that the source leaves open (R5, 93_implementation_defined.md I1-I4). -/
structure Config where
  /-- `OPCODE_MAP`, mnemonic to opcode nibble (R77, decision D1). -/
  opcodeMap : Variant → Nibble
  /-- `LEN_I`, the cells a format I instruction advances `PC` by (R109, decision D2). -/
  lenImm : Nat
  /-- `PULSE_TOTAL`, pulses per instruction (R101, decision D3). -/
  pulseTotal : Variant → Nat
  /-- `SCHEDULE`, the pulse index of each visible action; an index not listed is a settle pulse
  (R103, decision D4). -/
  schedule : Variant → List (Nat × PulseAction)

/-- The visible actions of a template in the order the phases of an instruction happen (R10, R103). -/
def Template.phases : Template → List PulseAction
  | .n => [.pc]
  | .i => [.fetchImm, .execute, .flags, .pc]
  | .d => [.fetchN1, .fetchN2, .fetchN3, .execute, .flags, .pc]

end Sys2Proof
end

