-- ==== Sys2Proof/WellFormed.lean ====
section
/-! DEFINITION. What the spec asks of an instruction and of a choice of parameters. -/

namespace Sys2Proof

/-- Every instruction term is well formed: an immediate is any nibble and a direct address any 12-bit
value, so there is nothing left to check (R79: operand cells have no illegal or reserved values). -/
def Instr.wellFormed : Instr → Bool
  | .nop => true
  | .jmp _ | .jc _ | .jz _ | .ld _ | .st _ | .nor _ | .add _ | .cmp _ => true
  | .ldi _ | .stc _ | .inp _ | .outp _ | .addi _ | .cmpi _ => true

/-- `OPCODE_MAP` is injective (R77). -/
def injectiveMap (map : Variant → Nibble) : Bool :=
  decide ((Variant.all.map map).Nodup)

/-- The pulse indices of a schedule rise strictly from `lo` on. -/
def risingFrom (lo : Nat) : List (Nat × PulseAction) → Bool
  | [] => true
  | (k, _) :: rest => decide (lo ≤ k) && risingFrom (k + 1) rest

/-- The schedule of one variant: its visible actions are its template's phases in order, their pulse
indices rise, and the pc phase is the last of the `total` pulses (R10, R103). -/
def scheduleFits (v : Variant) (total : Nat) (sched : List (Nat × PulseAction)) : Bool :=
  decide (sched.map Prod.snd = v.template.phases) && risingFrom 0 sched &&
    decide (sched.getLast? = some (total - 1, .pc)) && decide (0 < total)

/-- A legal choice of parameters: an injective opcode map (R77), a format I advance that is one of the
two values the source's text gives (I4), NOP's total of 8 (R101), and a schedule that fits each
variant (R103). -/
def Config.wellFormed (cfg : Config) : Bool :=
  injectiveMap cfg.opcodeMap && (decide (cfg.lenImm = 1) || decide (cfg.lenImm = 2)) &&
    decide (cfg.pulseTotal .nop = 8) &&
    Variant.all.all fun v => scheduleFits v (cfg.pulseTotal v) (cfg.schedule v)

end Sys2Proof
end

