-- ==== Sys2Proof/Decode.lean ====
section
/-! DEFINITION. The opcode map, the decoder and the encoder (spec 30_encoding.md R70-R80). -/

namespace Sys2Proof

/-- The default `OPCODE_MAP`: catalogue order (R77, UNVERIFIED: the spec's decision D1; log entry 1). -/
def opcodeMap : Variant → Nibble
  | .nop => 0x0
  | .jmp => 0x1
  | .jc => 0x2
  | .jz => 0x3
  | .ld => 0x4
  | .ldi => 0x5
  | .st => 0x6
  | .stc => 0x7
  | .inp => 0x8
  | .outp => 0x9
  | .nor => 0xA
  | .add => 0xB
  | .addi => 0xC
  | .cmp => 0xD
  | .cmpi => 0xE

/-- Why a sequence of cells is no instruction. -/
inductive DecodeError where
  /-- The opcode cell holds a code that `OPCODE_MAP` does not assign (R78). -/
  | unknownOpcode (code : Nibble)
  /-- The list ends before the variant's last operand cell; a fetch from RAM never meets this (R52). -/
  | truncated (v : Variant)
  /-- The list holds no cell at all; a fetch from RAM never meets this. -/
  | noCells
deriving DecidableEq, Repr

/-- The decoder on opcode codes: the variant `map` assigns to `code`, if any (R78). -/
def decodeOpcode (map : Variant → Nibble) (code : Nibble) : Option Variant :=
  Variant.all.find? fun v => decide (map v = code)

/-- `n1 ++ n2 ++ n3`, the most significant nibble first (R53, R76). -/
def directAddress (n1 n2 n3 : Nibble) : Addr := n1 ++ n2 ++ n3

/-- `addr[11:8]`, the nibble in operand cell 1 (R73). -/
def addrN1 (addr : Addr) : Nibble := addr.extractLsb' 8 4

/-- `addr[7:4]`, the nibble in operand cell 2 (R73). -/
def addrN2 (addr : Addr) : Nibble := addr.extractLsb' 4 4

/-- `addr[3:0]`, the nibble in operand cell 3 (R73). -/
def addrN3 (addr : Addr) : Nibble := addr.extractLsb' 0 4

/-- The instruction of a variant whose immediate is `imm` (format I) or whose address is `addr`
(format D); the operand the format does not have is ignored (R71-R73). -/
def Variant.instr (v : Variant) (imm : Nibble) (addr : Addr) : Instr :=
  match v with
  | .nop => .nop
  | .jmp => .jmp addr
  | .jc => .jc addr
  | .jz => .jz addr
  | .ld => .ld addr
  | .ldi => .ldi imm
  | .st => .st addr
  | .stc => .stc imm
  | .inp => .inp imm
  | .outp => .outp imm
  | .nor => .nor addr
  | .add => .add addr
  | .addi => .addi imm
  | .cmp => .cmp addr
  | .cmpi => .cmpi imm

/-- Read a variant's operand cells from the cells after the opcode cell: the instruction and the cells
that follow it (R71-R76). -/
def decodeOperands (v : Variant) (cells : List Nibble) :
    Except DecodeError (Instr × List Nibble) :=
  match v.template, cells with
  | .n, rest => .ok (v.instr 0 0, rest)
  | .i, m :: rest => .ok (v.instr m 0, rest)
  | .d, n1 :: n2 :: n3 :: rest => .ok (v.instr 0 (directAddress n1 n2 n3), rest)
  | _, _ => .error (.truncated v)

/-- Decode the instruction at the head of a list of cells under the opcode map `map`, answering the
cells that follow it. Total: an unassigned code and a short list are refused by name (R70, R78). -/
def decodeWith (map : Variant → Nibble) : List Nibble → Except DecodeError (Instr × List Nibble)
  | [] => .error .noCells
  | code :: rest =>
    match decodeOpcode map code with
    | some v => decodeOperands v rest
    | none => .error (.unknownOpcode code)

/-- `decodeWith` under the default opcode map. -/
def decode (cells : List Nibble) : Except DecodeError (Instr × List Nibble) :=
  decodeWith opcodeMap cells

/-- The operand cells of an instruction, in address order (R71-R73). -/
def Instr.operandCells : Instr → List Nibble
  | .nop => []
  | .ldi m | .stc m | .inp m | .outp m | .addi m | .cmpi m => [m]
  | .jmp a | .jc a | .jz a | .ld a | .st a | .nor a | .add a | .cmp a =>
    [addrN1 a, addrN2 a, addrN3 a]

/-- The cells of an instruction under the opcode map `map`, in address order (R70-R73). -/
def encodeWith (map : Variant → Nibble) (i : Instr) : List Nibble :=
  map i.variant :: i.operandCells

/-- `encodeWith` under the default opcode map. -/
def encode (i : Instr) : List Nibble := encodeWith opcodeMap i

/-- The first four cells of an instruction whose bits are `w` as spec/opcode_table.json numbers them:
bit 0 is the least significant bit of cell 0, cell 1 is bits 7..4, and so on; bits from `nbits` on
are 0 (four cells is the longest instruction, R80; log entry 15). -/
def tableCells (nbits w : Nat) : List Nibble :=
  let u := w % 2 ^ nbits
  [BitVec.ofNat 4 u, BitVec.ofNat 4 (u / 2 ^ 4), BitVec.ofNat 4 (u / 2 ^ 8),
    BitVec.ofNat 4 (u / 2 ^ 12)]

/-- The instruction the decoder reads from an opcode-table word. -/
def decodeTableWord (nbits w : Nat) : Option Instr :=
  match decode (tableCells nbits w) with
  | .ok (i, _) => some i
  | .error _ => none

end Sys2Proof
end

