-- ==== Sys2Proof/Machine/Params.lean ====
section
/-! DEFINITION. The default values of the spec's parameters (spec 00_scope.md R5) and the lengths they give. -/

namespace Sys2Proof.Machine

/-- The default `PULSE_TOTAL` of a template: 8 pulses per instruction cell (R101; NOP's 8 is the
source's, 16 and 32 are UNVERIFIED: the spec's decision D3; log entry 3). -/
def defaultTotal : Template → Nat
  | .n => 8
  | .i => 16
  | .d => 32

/-- The default `SCHEDULE` of a template (R104, R105, R106; UNVERIFIED: the spec's decision D4; log
entry 4). -/
def defaultSchedule : Template → List (Nat × PulseAction)
  | .n => [(7, .pc)]
  | .i => [(8, .fetchImm), (13, .execute), (14, .flags), (15, .pc)]
  | .d => [(8, .fetchN1), (16, .fetchN2), (24, .fetchN3), (29, .execute), (30, .flags), (31, .pc)]

/-- The parameters with the spec's default values (R5). -/
def params : Config where
  opcodeMap := opcodeMap
  lenImm := 2
  pulseTotal v := defaultTotal v.template
  schedule v := defaultSchedule v.template

/-- `LEN`, the cells an instruction advances `PC` by when it does not jump (R25, R74, R109). -/
def lengthOf (cfg : Config) (v : Variant) : Nat :=
  match v.template with
  | .n => 1
  | .i => cfg.lenImm
  | .d => 4

end Sys2Proof.Machine
end

