-- ==== Sys2Proof/Machine/State.lean ====
section
/-! DEFINITION. The state of the machine, the reasons a step can stop, and the state after Reset
(spec 10_state.md R22, R30-R36; 70_reset_and_hazards.md R180). -/

namespace Sys2Proof.Machine

/-- The 4096 RAM cells (R30, R50) as (address, cell value) pairs in one canonical form: addresses
strictly rising and below 4096, no entry whose value is 0, and each value a nibble held in a
`Host.Cell`'s byte with its high four bits 0 (log entry 12). An address that is not listed reads as 0,
the value at construction (R22). -/
structure Memory where
  cells : List Host.Cell
deriving DecidableEq, Repr

/-- The latches `L` of an Operation (R35). -/
structure Latches where
  imm : Nibble
  n1 : Nibble
  n2 : Nibble
  n3 : Nibble
  cN : Flag
  zN : Flag
deriving DecidableEq, Repr

/-- `live(V, k, T, L)`, the Operation in the slot; complete when the counter has reached the total (R34). -/
structure Operation where
  variant : Variant
  counter : Nat
  total : Nat
  latches : Latches
deriving DecidableEq, Repr

/-- The machine's one exception (R160). -/
inductive Fault where
  /-- `UnknownOpcode(code, pc)`. Raised by the dispatcher, which records it in the fault latch (a next
  state, R94, R160); `step` answers it when the latch is set, because the driver has stopped on it
  (R91, R162). SAFE: the run ends there and nothing more is claimed of it (R192). -/
  | unknownOpcode (code : Nibble) (pc : Addr)
deriving DecidableEq, Repr

/-- Events to which the spec gives no step. All but the first are answered by `applyEvent` only; no
instruction's meaning refuses. -/
inductive Refusal where
  /-- An instruction without a meaning in this model: none is left. SAFE: the model stops. -/
  | notModelled (mnemonic : String)
  /-- `Decode` or `Dispatch` while a live Operation is incomplete (R92, D7). SAFE: a stop. -/
  | dispatchWhileLive
  /-- `Decode` or `Dispatch` while the fault latch is set (R92, R163). SAFE: a stop. -/
  | dispatchWhileFaulted
  /-- A harness read or write while a live Operation is incomplete (R185, D8). SAFE: a stop. -/
  | accessWhileLive
  /-- `Reset` while a live Operation is incomplete (R181, D8). SAFE: a stop. -/
  | resetWhileLive
deriving DecidableEq, Repr

/-- Everything the spec gives the machine (R22). -/
structure State where
  /-- `A`, the accumulator (R23). -/
  a : Nibble
  /-- `C`, the carry flag (R26). -/
  c : Flag
  /-- `Z`, the zero flag (R27). -/
  z : Flag
  /-- `PC`, the program counter (R24). -/
  pc : Addr
  /-- `ram[0..4095]` (R30). -/
  ram : Memory
  /-- `input_ports[0..15]` (R31). -/
  inputPorts : Vector Nibble 16
  /-- `output_ports[0..15]` (R31). -/
  outputPorts : Vector Nibble 16
  /-- The Operation slot (R34). -/
  op : Option Operation
  /-- The fault latch (R36). -/
  fault : Option Fault
deriving DecidableEq, Repr

/-- The state after `Reset`: every register, cell and port 0, no Operation, the fault latch clear
(R22, R180). -/
def State.reset : State where
  a := 0
  c := 0
  z := 0
  pc := 0
  ram := ⟨[]⟩
  inputPorts := Vector.replicate 16 0
  outputPorts := Vector.replicate 16 0
  op := none
  fault := none

end Sys2Proof.Machine
end

