-- ==== Sys2Proof/Machine/Ops.lean ====
section
/-! DEFINITION. The register primitive, memory, ports, register writes, retirement, and taking the one exception
(spec 00_scope.md R9; 10_state.md R20, R21; 20_memory.md R50-R59; 60_exceptions.md R160). -/

namespace Sys2Proof.Machine

/-! ### The register primitive -/

/-- `set(v)`: a register of width `w` stores `v mod 2^w` of any integer `v` (R20). -/
def setReg (w : Nat) (v : Int) : BitVec w := BitVec.ofInt w v

/-- `increment`: the maximum value wraps to 0 (R21). -/
def increment {w : Nat} (r : BitVec w) : BitVec w := r + 1#w

/-- `decrement`: 0 wraps to the maximum value (R21). -/
def decrement {w : Nat} (r : BitVec w) : BitVec w := r - 1#w

/-! ### RAM -/

/-- The value a list of cells in canonical form holds at address `k`; an unlisted address holds 0 (R22, R59). -/
def lookupCell (k : Nat) : List Host.Cell → BitVec 8
  | [] => 0#8
  | (j, b) :: rest => if k = j then b else lookupCell k rest

/-- Store `b` at address `k`, keeping the canonical form: storing 0 removes the entry. -/
def storeCell (k : Nat) (b : BitVec 8) : List Host.Cell → List Host.Cell
  | [] => if b = 0#8 then [] else [(k, b)]
  | (j, x) :: rest =>
    if k < j then (if b = 0#8 then (j, x) :: rest else (k, b) :: (j, x) :: rest)
    else if k = j then (if b = 0#8 then rest else (k, b) :: rest)
    else (j, x) :: storeCell k b rest

/-- The canonical form from address `lo` on: addresses strictly rising and below 4096, every value a
nonzero nibble. -/
def cellsWf (lo : Nat) : List Host.Cell → Bool
  | [] => true
  | (k, b) :: rest =>
    decide (lo ≤ k) && decide (k < ramCells) && decide (b ≠ 0#8) && decide (b.toNat < 16) &&
      cellsWf (k + 1) rest

/-- The canonical form of the RAM's representation. -/
def Memory.wf (m : Memory) : Bool := cellsWf 0 m.cells

/-- `ram[a]`, one 4-bit cell (R50, R55). -/
def Memory.read (m : Memory) (a : Addr) : Nibble := (lookupCell a.toNat m.cells).setWidth 4

/-- `ram[a] <- v`, one 4-bit cell (R50, R55). -/
def Memory.write (m : Memory) (a : Addr) (v : Nibble) : Memory :=
  ⟨storeCell a.toNat (v.setWidth 8) m.cells⟩

/-- `MemRead(a, 1)` (R9). -/
def State.memRead (s : State) (a : Addr) : Nibble := s.ram.read a

/-- `MemWrite(a, 1, v)` (R9). -/
def State.memWrite (s : State) (a : Addr) (v : Nibble) : State :=
  { s with ram := s.ram.write a v }

/-! ### Ports -/

/-- `PortIn(i)`: reading an input port changes nothing (R9, R56). -/
def State.portIn (s : State) (i : Nibble) : Nibble := s.inputPorts[i.toNat]'i.isLt

/-- `output_ports[i]`; only the harness reads it (R31). -/
def State.outputAt (s : State) (i : Nibble) : Nibble := s.outputPorts[i.toNat]'i.isLt

/-- `PortOut(i, v)` (R9). -/
def State.portOut (s : State) (i v : Nibble) : State :=
  { s with outputPorts := s.outputPorts.set i.toNat v i.isLt }

/-! ### Register writes -/

/-- `A <- v` (R9). -/
def State.setA (s : State) (v : Nibble) : State := { s with a := v }

/-- `C <- v` (R9). -/
def State.setC (s : State) (v : Flag) : State := { s with c := v }

/-- `Z <- v` (R9). -/
def State.setZ (s : State) (v : Flag) : State := { s with z := v }

/-- `C <- cN` and `Z <- zN`, the flags phase of a variant whose policy is C and Z (R108). -/
def State.setCZ (s : State) (cN zN : Flag) : State := { s with c := cN, z := zN }

/-- `PC <- v` (R9). -/
def State.setPC (s : State) (v : Addr) : State := { s with pc := v }

/-! ### The Operation slot -/

/-- Every latch is 0 when its Operation is constructed (R35). -/
def emptyLatches : Latches := ⟨0, 0, 0, 0, 0, 0⟩

/-- `complete`: false exactly while a live Operation's counter is below its total (R100). -/
def State.complete (s : State) : Bool :=
  match s.op with
  | none => true
  | some o => decide (o.total ≤ o.counter)

/-- `PC` after an instruction of variant `v` that does not jump (R25, R109). -/
def State.nextPC (s : State) (cfg : Config) (v : Variant) : Addr :=
  s.pc + BitVec.ofNat 12 (lengthOf cfg v)

/-- The retirement of an instruction of variant `v`: the Operation, complete, stays in the slot with the
latches it ended with (R34, conflict C7), and `PC` takes its new value (R109). -/
def State.retire (s : State) (cfg : Config) (v : Variant) (l : Latches) (newPC : Addr) : State :=
  { s with
    pc := newPC
    op := some { variant := v, counter := cfg.pulseTotal v, total := cfg.pulseTotal v, latches := l } }

/-! ### Taking the exception -/

/-- `raise UnknownOpcode(code, PC)`: the latch records the code and `PC`, the slot is emptied, and
nothing else changes (R94, R160, R167). There is no return from it but Reset (R168). -/
def State.raiseUnknownOpcode (s : State) (code : Nibble) : State :=
  { s with op := none, fault := some (.unknownOpcode code s.pc) }

end Sys2Proof.Machine
end

