-- ==== Sys2Proof/Machine/Operands.lean ====
section
/-! DEFINITION. Operand cells, immediates, direct addresses and the latches that hold them
(spec 20_memory.md R52, R53; 30_encoding.md R75, R76; 10_state.md R35; 40_cycle.md R107). -/

namespace Sys2Proof.Machine

/-- The address of operand cell `j`: `(PC + j) mod 4096` (R52, R107). -/
def State.operandAddr (s : State) (j : Nat) : Addr := s.pc + BitVec.ofNat 12 j

/-- Operand cell `j` of the instruction at `PC` (R75, R76, R107). -/
def State.operandCell (s : State) (j : Nat) : Nibble := s.memRead (s.operandAddr j)

/-- The immediate operand of the instruction at `PC` (R75). -/
def State.immOperand (s : State) : Nibble := s.operandCell 1

/-- The direct address of the instruction at `PC` (R76). -/
def State.addrOperand (s : State) : Addr :=
  directAddress (s.operandCell 1) (s.operandCell 2) (s.operandCell 3)

/-- `addr`, the address the latched nibbles form (R35). -/
def Latches.addr (l : Latches) : Addr := directAddress l.n1 l.n2 l.n3

/-- The latches after the operand fetch of a format I instruction (R105). -/
def immLatches (imm : Nibble) : Latches := { emptyLatches with imm := imm }

/-- The latches after the operand fetch of a format D instruction (R106). -/
def directLatches (addr : Addr) : Latches :=
  { emptyLatches with n1 := addrN1 addr, n2 := addrN2 addr, n3 := addrN3 addr }

/-- The execute phase latched both flag values (R141-R144). -/
def Latches.withCZ (l : Latches) (cN zN : Flag) : Latches := { l with cN := cN, zN := zN }

/-- The execute phase latched a carry value (R133). -/
def Latches.withC (l : Latches) (cN : Flag) : Latches := { l with cN := cN }

/-- The execute phase latched a zero value (R140). -/
def Latches.withZ (l : Latches) (zN : Flag) : Latches := { l with zN := zN }

end Sys2Proof.Machine
end

