-- ==== Sys2Proof/Machine/Alu.lean ====
section
/-! DEFINITION. The arithmetic and logic instructions NOR, ADD, ADDI, CMP, CMPI at retirement level
(spec 43_alu.md R140-R149; 40_cycle.md R110). -/

namespace Sys2Proof.Machine

/-- `A <- A + m` with carry out and zero flag, shared by ADD and ADDI (R145). -/
def State.addToA (s : State) (m : Nibble) : State :=
  (s.setA (addResult s.a m)).setCZ (addCarry s.a m) (zeroFlag (addResult s.a m))

/-- The comparison of `A` with `m`, shared by CMP and CMPI: `A` is unchanged (R146). -/
def State.compareA (s : State) (m : Nibble) : State :=
  s.setCZ (cmpBorrow s.a m) (cmpEqual s.a m)

/-- NOR: `A <- ~(A | ram[addr])` and `Z` (R140). -/
def execNor (addr : Addr) (s : State) : Host.Outcome State Fault Refusal :=
  let r := norResult s.a (s.memRead addr)
  .next (((s.setA r).setZ (zeroFlag r)).retire params .nor
    ((directLatches addr).withZ (zeroFlag r)) (s.nextPC params .nor))

/-- ADD: `A <- (A + ram[addr]) mod 16`, `C` and `Z` (R141). -/
def execAdd (addr : Addr) (s : State) : Host.Outcome State Fault Refusal :=
  let m := s.memRead addr
  .next ((s.addToA m).retire params .add
    ((directLatches addr).withCZ (addCarry s.a m) (zeroFlag (addResult s.a m)))
    (s.nextPC params .add))

/-- ADDI: `A <- (A + imm) mod 16`, `C` and `Z` (R142). -/
def execAddi (imm : Nibble) (s : State) : Host.Outcome State Fault Refusal :=
  .next ((s.addToA imm).retire params .addi
    ((immLatches imm).withCZ (addCarry s.a imm) (zeroFlag (addResult s.a imm)))
    (s.nextPC params .addi))

/-- CMP: `C` is the borrow and `Z` the equality of `A` and `ram[addr]` (R143). -/
def execCmp (addr : Addr) (s : State) : Host.Outcome State Fault Refusal :=
  let m := s.memRead addr
  .next ((s.compareA m).retire params .cmp
    ((directLatches addr).withCZ (cmpBorrow s.a m) (cmpEqual s.a m)) (s.nextPC params .cmp))

/-- CMPI: `C` is the borrow and `Z` the equality of `A` and `imm` (R144). -/
def execCmpi (imm : Nibble) (s : State) : Host.Outcome State Fault Refusal :=
  .next ((s.compareA imm).retire params .cmpi
    ((immLatches imm).withCZ (cmpBorrow s.a imm) (cmpEqual s.a imm)) (s.nextPC params .cmpi))

end Sys2Proof.Machine
end

