-- ==== Sys2Proof/Machine/Control.lean ====
section
/-! DEFINITION. The control instructions NOP, JMP, JC, JZ at retirement level (spec 41_control.md R120-R124;
40_cycle.md R110). -/

namespace Sys2Proof.Machine

/-- NOP (R120). -/
def execNop (s : State) : Host.Outcome State Fault Refusal :=
  .next (s.retire params .nop emptyLatches (s.nextPC params .nop))

/-- JMP: `PC <- addr` (R121). -/
def execJmp (addr : Addr) (s : State) : Host.Outcome State Fault Refusal :=
  .next (s.retire params .jmp (directLatches addr) addr)

/-- JC: `PC <- addr` if `C == 1`, else sequential (R122). -/
def execJc (addr : Addr) (s : State) : Host.Outcome State Fault Refusal :=
  .next (s.retire params .jc (directLatches addr) (if s.c = 1#1 then addr else s.nextPC params .jc))

/-- JZ: `PC <- addr` if `Z == 1`, else sequential (R123). -/
def execJz (addr : Addr) (s : State) : Host.Outcome State Fault Refusal :=
  .next (s.retire params .jz (directLatches addr) (if s.z = 1#1 then addr else s.nextPC params .jz))

end Sys2Proof.Machine
end

