-- ==== Sys2Proof/Machine/Transfer.lean ====
section
/-! DEFINITION. The data-transfer instructions LD, LDI, ST, STC, IN, OUT at retirement level
(spec 42_transfer.md R130-R136; 40_cycle.md R110). -/

namespace Sys2Proof.Machine

/-- LD: `A <- MemRead(addr, 1)`, no flag (R130). -/
def execLd (addr : Addr) (s : State) : Host.Outcome State Fault Refusal :=
  .next ((s.setA (s.memRead addr)).retire params .ld (directLatches addr) (s.nextPC params .ld))

/-- LDI: `A <- imm`, no flag (R131). -/
def execLdi (imm : Nibble) (s : State) : Host.Outcome State Fault Refusal :=
  .next ((s.setA imm).retire params .ldi (immLatches imm) (s.nextPC params .ldi))

/-- ST: `MemWrite(addr, 1, A)`, no flag (R132). -/
def execSt (addr : Addr) (s : State) : Host.Outcome State Fault Refusal :=
  .next ((s.memWrite addr s.a).retire params .st (directLatches addr) (s.nextPC params .st))

/-- STC: `C <- imm[0]`, bits 3:1 ignored (R133). -/
def execStc (imm : Nibble) (s : State) : Host.Outcome State Fault Refusal :=
  .next ((s.setC (stcCarry imm)).retire params .stc
    ((immLatches imm).withC (stcCarry imm)) (s.nextPC params .stc))

/-- IN: `A <- PortIn(port)`, no flag (R134). -/
def execIn (port : Nibble) (s : State) : Host.Outcome State Fault Refusal :=
  .next ((s.setA (s.portIn port)).retire params .inp (immLatches port) (s.nextPC params .inp))

/-- OUT: `PortOut(port, A)`, no flag (R135). -/
def execOut (port : Nibble) (s : State) : Host.Outcome State Fault Refusal :=
  .next ((s.portOut port s.a).retire params .outp (immLatches port) (s.nextPC params .outp))

end Sys2Proof.Machine
end

