-- ==== Sys2Proof/Machine/Dispatch.lean ====
section
/-! DEFINITION. The meaning of each instruction: one arm per constructor of `Instr`. -/

namespace Sys2Proof.Machine

/-- The effect of a whole instruction on the state at its dispatch, operands fetched (spec 40_cycle.md R110). -/
def exec (i : Instr) (s : State) : Host.Outcome State Fault Refusal :=
  match i with
  | .nop => Sys2Proof.Machine.execNop s
  | .jmp addr => Sys2Proof.Machine.execJmp addr s
  | .jc addr => Sys2Proof.Machine.execJc addr s
  | .jz addr => Sys2Proof.Machine.execJz addr s
  | .ld addr => Sys2Proof.Machine.execLd addr s
  | .ldi imm => Sys2Proof.Machine.execLdi imm s
  | .st addr => Sys2Proof.Machine.execSt addr s
  | .stc imm => Sys2Proof.Machine.execStc imm s
  | .inp port => Sys2Proof.Machine.execIn port s
  | .outp port => Sys2Proof.Machine.execOut port s
  | .nor addr => Sys2Proof.Machine.execNor addr s
  | .add addr => Sys2Proof.Machine.execAdd addr s
  | .addi imm => Sys2Proof.Machine.execAddi imm s
  | .cmp addr => Sys2Proof.Machine.execCmp addr s
  | .cmpi imm => Sys2Proof.Machine.execCmpi imm s

end Sys2Proof.Machine
end

