-- ==== Sys2Proof/Machine/Pulse.lean ====
section
/-! DEFINITION. The Operation state machine pulse by pulse, for any choice of the spec's parameters: the
phases of each variant, the scheduled actions, `Pulse`, and the dispatcher (spec 40_cycle.md R93-R109). -/

namespace Sys2Proof.Machine

/-! ### The dispatcher -/

/-- `op <- live(V, k = 0, T = PULSE_TOTAL(V), L = 0)` (R94). -/
def State.startOperation (s : State) (cfg : Config) (v : Variant) : State :=
  { s with op := some { variant := v, counter := 0, total := cfg.pulseTotal v, latches := emptyLatches } }

/-- `Dispatch(code)` where it is admitted: start the variant the code is assigned to, or raise
`UnknownOpcode` (R94). -/
def State.dispatchCode (s : State) (cfg : Config) (code : Nibble) : State :=
  match decodeOpcode cfg.opcodeMap code with
  | some v => s.startOperation cfg v
  | none => s.raiseUnknownOpcode code

/-! ### The phases of a variant -/

/-- The execute phase: the data access and the result write, and the flag values it latches
(R102; R130-R135, R140-R144). -/
def executePhase (v : Variant) (l : Latches) (s : State) : State × Latches :=
  match v with
  | .nop | .jmp | .jc | .jz => (s, l)
  | .ld => (s.setA (s.memRead l.addr), l)
  | .ldi => (s.setA l.imm, l)
  | .st => (s.memWrite l.addr s.a, l)
  | .stc => (s, l.withC (stcCarry l.imm))
  | .inp => (s.setA (s.portIn l.imm), l)
  | .outp => (s.portOut l.imm s.a, l)
  | .nor =>
    let r := norResult s.a (s.memRead l.addr)
    (s.setA r, l.withZ (zeroFlag r))
  | .add =>
    let m := s.memRead l.addr
    (s.setA (addResult s.a m), l.withCZ (addCarry s.a m) (zeroFlag (addResult s.a m)))
  | .addi =>
    (s.setA (addResult s.a l.imm), l.withCZ (addCarry s.a l.imm) (zeroFlag (addResult s.a l.imm)))
  | .cmp =>
    let m := s.memRead l.addr
    (s, l.withCZ (cmpBorrow s.a m) (cmpEqual s.a m))
  | .cmpi => (s, l.withCZ (cmpBorrow s.a l.imm) (cmpEqual s.a l.imm))

/-- The flags phase: write each flag of the variant's policy from its latch (R102, R108). -/
def flagsPhase (v : Variant) (l : Latches) (s : State) : State :=
  match v with
  | .nop | .jmp | .jc | .jz | .ld | .ldi | .st | .inp | .outp => s
  | .stc => s.setC l.cN
  | .nor => s.setZ l.zN
  | .add | .addi | .cmp | .cmpi => s.setCZ l.cN l.zN

/-- The pc phase: the jump target if the variant jumps, else the next instruction (R102, R109). -/
def pcPhase (cfg : Config) (v : Variant) (l : Latches) (s : State) : State :=
  match v with
  | .jmp => s.setPC l.addr
  | .jc => s.setPC (if s.c = 1#1 then l.addr else s.nextPC cfg v)
  | .jz => s.setPC (if s.z = 1#1 then l.addr else s.nextPC cfg v)
  | .nop | .ld | .ldi | .st | .stc | .inp | .outp | .nor | .add | .addi | .cmp | .cmpi =>
    s.setPC (s.nextPC cfg v)

/-! ### A pulse -/

/-- One visible action of an Operation of variant `v` with latches `l`: the machine and the latches
after it (R104-R109). -/
def performAction (cfg : Config) (v : Variant) (x : PulseAction) (l : Latches) (s : State) :
    State × Latches :=
  match x with
  | .fetchImm => (s, { l with imm := s.operandCell 1 })
  | .fetchN1 => (s, { l with n1 := s.operandCell 1 })
  | .fetchN2 => (s, { l with n2 := s.operandCell 2 })
  | .fetchN3 => (s, { l with n3 := s.operandCell 3 })
  | .execute => executePhase v l s
  | .flags => (flagsPhase v l s, l)
  | .pc => (pcPhase cfg v l s, l)

/-- The action the schedule gives for pulse `k` of variant `v`; `none` is a settle pulse (R97, R103). -/
def scheduledAction (cfg : Config) (v : Variant) (k : Nat) : Option PulseAction :=
  (cfg.schedule v).lookup k

/-- The pulse of an incomplete Operation `o`: its scheduled action, if any, then `k <- k + 1` (R97). -/
def advanceOperation (cfg : Config) (o : Operation) (s : State) : State :=
  let r := match scheduledAction cfg o.variant o.counter with
    | none => (s, o.latches)
    | some x => performAction cfg o.variant x o.latches s
  { r.1 with op := some { o with counter := o.counter + 1, latches := r.2 } }

/-- `Pulse`: a no-op when there is no Operation or it is complete (R97, R98, R99). -/
def pulse (cfg : Config) (s : State) : State :=
  match s.op with
  | none => s
  | some o => if o.counter < o.total then advanceOperation cfg o s else s

/-- `n` pulses. -/
def runPulses (cfg : Config) : Nat → State → State
  | 0, s => s
  | n + 1, s => runPulses cfg n (pulse cfg s)

/-- How many pulses the Operation in the slot still takes (R97, R100). -/
def State.pulsesLeft (s : State) : Nat :=
  match s.op with
  | none => 0
  | some o => o.total - o.counter

/-! ### A variant's whole effect -/

/-- A list of visible actions performed in order (R10). -/
def performAll (cfg : Config) (v : Variant) : List PulseAction → Latches → State → State × Latches
  | [], l, s => (s, l)
  | x :: xs, l, s =>
    performAll cfg v xs (performAction cfg v x l s).2 (performAction cfg v x l s).1

/-- `Exec(V, S)`: the phases of variant `v` in order, fetch, execute, flags, pc, on the state at its
dispatch; the complete Operation stays in the slot (R110, R34). -/
def retired (cfg : Config) (v : Variant) (s : State) : State :=
  let r := performAll cfg v v.template.phases emptyLatches s
  { r.1 with
    op := some { variant := v, counter := cfg.pulseTotal v, total := cfg.pulseTotal v, latches := r.2 } }

end Sys2Proof.Machine
end

