-- ==== Sys2Proof/Machine/Driver.lean ====
section
/-! DEFINITION. Instruction fetch and the retirement-level step: one round of the driver
(spec 40_cycle.md R91-R94, R110). -/

namespace Sys2Proof.Machine

/-- The four cells from `PC` on, the most an instruction can occupy (R52, R70). -/
def State.fetchCells (s : State) : List Nibble :=
  [s.memRead s.pc, s.operandCell 1, s.operandCell 2, s.operandCell 3]

/-- The instruction at `PC` (R70, R93, R107). Reading RAM has no side effect, so cells beyond the
instruction's own do no harm (R56). -/
def State.fetchInstr (s : State) : Except DecodeError Instr :=
  match decode s.fetchCells with
  | .ok (i, _) => .ok i
  | .error e => .error e

/-- One round of the driver (R91). At a retirement boundary with the latch clear: decode the instruction
at `PC` and run it to its retirement (R110), or take `UnknownOpcode` (R94, R160). With the latch set the
driver has stopped, and the machine answers the latched fault (R91, R162; DEDUCED; log entry 6). With an
Operation incomplete, the round goes on pulsing it until it completes (R91, R186; DEDUCED; log entry 5). -/
def driverStep (s : State) : Host.Outcome State Fault Refusal :=
  if s.complete then
    match s.fault with
    | some f => .fault f
    | none =>
      match s.fetchInstr with
      | .ok i => exec i s
      | .error _ => .next (s.raiseUnknownOpcode (s.memRead s.pc))
  else .next (runPulses params s.pulsesLeft s)

/-- Cells stored from `PC + j` on, in address order, wrapping past the top of RAM (R52). -/
def State.placeCells (s : State) (j : Nat) : List Nibble → State
  | [] => s
  | n :: rest => ((s.memWrite (s.operandAddr j) n).placeCells (j + 1) rest)

/-- The cells of an opcode-table word stored at `PC`, and the slot and latch as a `Decode` needs them: no
incomplete Operation, no latched fault (R92; log entry 10). -/
def placeTableWord (s : State) (nbits w : Nat) : State :=
  let t := s.placeCells 0 (tableCells nbits w)
  { t with op := if s.complete then s.op else none, fault := none }

end Sys2Proof.Machine
end

