-- ==== Sys2Proof/Machine/Step.lean ====
section
/-! DEFINITION. The step of the machine and the host's placing of an instruction. -/

namespace Sys2Proof.Machine

/-- One step: one round of the driver, at retirement level (spec 40_cycle.md R91, R110). -/
def step (s : State) : Host.Outcome State Fault Refusal := driverStep s

/-- The state with an opcode-table word stored where the next step fetches, at `PC` (log entry 10). -/
def State.withFetchWord (s : State) (nbits w : Nat) : State := placeTableWord s nbits w

end Sys2Proof.Machine
end

