-- ==== Sys2Proof/Machine/Events.lean ====
section
/-! DEFINITION. The block's interface: the events that enter it, when each is admitted, and its outputs
(spec 40_cycle.md R90-R95; 10_state.md R33; 70_reset_and_hazards.md R180-R186). -/

namespace Sys2Proof.Machine

/-- A register the harness can name; every index is in range by its type (R33, R50, R51). -/
inductive RegSel where
  | a
  | c
  | z
  | pc
  | ram (i : Addr)
  | inputPort (i : Nibble)
  | outputPort (i : Nibble)
deriving DecidableEq, Repr

/-- The width of a register (R5, R22). -/
def RegSel.width : RegSel → Nat
  | .c | .z => 1
  | .pc => 12
  | .a | .ram _ | .inputPort _ | .outputPort _ => 4

/-- The value a harness read returns (R33). -/
def State.harnessValue (s : State) : RegSel → Nat
  | .a => s.a.toNat
  | .c => s.c.toNat
  | .z => s.z.toNat
  | .pc => s.pc.toNat
  | .ram i => (s.memRead i).toNat
  | .inputPort i => (s.portIn i).toNat
  | .outputPort i => (s.outputAt i).toNat

/-- `input_ports[i] <- v`; only the harness writes an input port (R31). -/
def State.setInput (s : State) (i v : Nibble) : State :=
  { s with inputPorts := s.inputPorts.set i.toNat v i.isLt }

/-- A harness write of the integer `v`: the register stores `v mod 2^width` (R20, R33). -/
def State.harnessWrite (s : State) (r : RegSel) (v : Int) : State :=
  match r with
  | .a => s.setA (setReg 4 v)
  | .c => s.setC (setReg 1 v)
  | .z => s.setZ (setReg 1 v)
  | .pc => s.setPC (setReg 12 v)
  | .ram i => s.memWrite i (setReg 4 v)
  | .inputPort i => s.setInput i (setReg 4 v)
  | .outputPort i => s.portOut i (setReg 4 v)

/-- The events of R90. A harness write carries an integer by its type, so `InvalidValue` cannot be
spelled (R161). -/
inductive Event where
  | reset
  | decode
  | dispatch (code : Nibble)
  | pulse
  | write (r : RegSel) (v : Int)
  | read (r : RegSel)
deriving DecidableEq, Repr

/-- `Dispatch(code)` with its admission checks, which come before the code is looked at (R92, R166). -/
def dispatchEvent (cfg : Config) (code : Nibble) (s : State) : Host.Outcome State Fault Refusal :=
  if s.complete then
    if s.fault.isSome then .refused .dispatchWhileFaulted else .next (s.dispatchCode cfg code)
  else .refused .dispatchWhileLive

/-- At a retirement boundary, or faulted (R181, R186). -/
def State.boundaryOrFaulted (s : State) : Bool := s.complete || s.fault.isSome

/-- One event of the block (R90, R186). A harness write is admitted at every retirement boundary, the
empty slot of a faulted machine included (R185, DEDUCED; log entry 7). -/
def applyEvent (cfg : Config) (e : Event) (s : State) : Host.Outcome State Fault Refusal :=
  match e with
  | .reset => if s.boundaryOrFaulted then .next State.reset else .refused .resetWhileLive
  | .decode => dispatchEvent cfg (s.memRead s.pc) s
  | .dispatch code => dispatchEvent cfg code s
  | .pulse => .next (pulse cfg s)
  | .write r v => if s.complete then .next (s.harnessWrite r v) else .refused .accessWhileLive
  | .read _ => if s.boundaryOrFaulted then .next s else .refused .accessWhileLive

/-- The value output by a harness read, where the read is admitted (R33, R186). -/
def harnessRead (s : State) (r : RegSel) : Except Refusal Nat :=
  if s.boundaryOrFaulted then .ok (s.harnessValue r) else .error .accessWhileLive

/-- One round of the driver through the block's events: `Decode`, then `Pulse` until `complete` (R91). -/
def driverRound (cfg : Config) (s : State) : Host.Outcome State Fault Refusal :=
  match applyEvent cfg .decode s with
  | .next t => .next (runPulses cfg t.pulsesLeft t)
  | .fault r => .fault r
  | .refused r => .refused r

end Sys2Proof.Machine
end

