-- ==== Sys2Proof/Machine/Run.lean ====
section
/-! DEFINITION. Runs as the spec observes them, of events from Reset and of whole retirements: where a run is observed,
and pulse counts (spec 70_reset_and_hazards.md R189, R192). -/

namespace Sys2Proof.Machine

/-- Where a run may be observed: at a retirement boundary, and not after a fault, which ends a run without
finishing it (R192). -/
def State.observable (s : State) : Bool := s.complete && s.fault.isNone

/-- The run may be observed here with `PC` at the stop address (R192). -/
def State.stopsAt (s : State) (stop : Addr) : Bool := s.observable && decide (s.pc = stop)

/-! ### Runs of events -/

/-- How far a finite sequence of events has come (R192). -/
inductive RunStatus where
  /-- Every event was taken and no fault was met: the state, and the retirements since Reset. -/
  | going (s : State) (retired : Nat)
  /-- The run reached a fault: it has ended without finishing. -/
  | ended (f : Fault)
  /-- An event was refused: it has no step, so the sequence is no run (R92). -/
  | refused (r : Refusal)
deriving DecidableEq, Repr

/-- The retirements since Reset after an event from `s` to `t`, `n` before it: the pulse that makes the Operation
complete retires it (R11, R100), and Reset begins a new run (DEDUCED; log entry 19). -/
def countRetirement (e : Event) (s t : State) (n : Nat) : Nat :=
  match e with
  | .reset => 0
  | .pulse => if !s.complete && t.complete then n + 1 else n
  | .decode | .dispatch _ | .write _ _ | .read _ => n

/-- A sequence of events applied from state `s` with `n` retirements behind it. A run that has reached a fault has
ended, whatever events follow (R192). -/
def runFrom (cfg : Config) : List Event → State → Nat → RunStatus
  | [], s, n =>
    match s.fault with
    | some f => .ended f
    | none => .going s n
  | e :: es, s, n =>
    match s.fault with
    | some f => .ended f
    | none =>
      match applyEvent cfg e s with
      | .next t => runFrom cfg es t (countRetirement e s t n)
      | .fault f => .ended f
      | .refused r => .refused r

/-- A run: a finite sequence of events from `Reset` (R192). -/
def runEvents (cfg : Config) (es : List Event) : RunStatus := runFrom cfg es State.reset 0

/-- The final state of a run observed after `n` retirements: its events lead to a retirement boundary with `n`
retirements and no fault (R192). The whole list is judged: one that faults or holds a refused event anywhere has no
such state (DEDUCED; log entry 19). -/
def finalAfter (cfg : Config) (n : Nat) (es : List Event) : Option State :=
  match runEvents cfg es with
  | .going s k => if s.observable && decide (k = n) then some s else none
  | .ended _ => none
  | .refused _ => none

/-- The first point of a sequence of events at which the run may be observed with `PC` at `stop`: the retirements
and the state there (R192). The run is judged up to that point only: events listed after it are ignored, even where one
of them faults or is refused (DESIGN CHOICE: R192 does not say what they do to a run observed there; log entry 19).
A fault or a refused event before it leaves no such point. -/
def firstStopFrom (cfg : Config) (stop : Addr) : List Event → State → Nat → Option (Nat × State)
  | [], s, n => if s.stopsAt stop then some (n, s) else none
  | e :: es, s, n =>
    if s.stopsAt stop then some (n, s)
    else if s.fault.isSome then none
    else
      match applyEvent cfg e s with
      | .next t => firstStopFrom cfg stop es t (countRetirement e s t n)
      | .fault _ => none
      | .refused _ => none

/-- The final state of a run observed at the first retirement boundary where `PC` is `stop`, with its
retirements (R192). Events listed after that boundary are ignored, unlike in `finalAfter` (DESIGN CHOICE; log
entry 19). -/
def finalAtStop (cfg : Config) (stop : Addr) (es : List Event) : Option (Nat × State) :=
  firstStopFrom cfg stop es State.reset 0

/-! ### Runs of whole retirements -/

/-- The state after `n` retirements of the driver's loop, where the run may be observed; `none` where the run has met
a fault, before it or in it, and for no retirement from inside an instruction (R91, R192). -/
def afterRetirements : Nat → State → Option State
  | 0, s => if s.observable then some s else none
  | n + 1, s =>
    match step s with
    | .next t => afterRetirements n t
    | .fault _ => none
    | .refused _ => none

/-- The number of retirements and the state at the first retirement boundary where the run may be observed and `PC` is
`stop`, looking at most `n` retirements ahead (R91, R192). -/
def firstBoundaryAt (stop : Addr) : Nat → State → Option (Nat × State)
  | 0, s => if s.stopsAt stop then some (0, s) else none
  | n + 1, s =>
    if s.stopsAt stop then some (0, s)
    else
      match step s with
      | .next t => (firstBoundaryAt stop n t).map fun r => (r.1 + 1, r.2)
      | .fault _ => none
      | .refused _ => none

/-- The pulses the Operation in the slot takes in all (R101). -/
def State.retirementPulses (s : State) : Nat :=
  match s.op with
  | none => 0
  | some o => o.total

/-- The pulses of a step from `s` to `t`: the whole total from a boundary, what is left of it from inside an
instruction (R101). -/
def stepPulses (s t : State) : Nat := if s.complete then t.retirementPulses else s.pulsesLeft

/-- The pulse count of a run of `n` retirements: the sum over the instructions it retires; `none` where
`afterRetirements` has no state (R189). -/
def pulsesOfRun : Nat → State → Option Nat
  | 0, s => if s.observable then some 0 else none
  | n + 1, s =>
    match step s with
    | .next t => (pulsesOfRun n t).map fun k => stepPulses s t + k
    | .fault _ => none
    | .refused _ => none

end Sys2Proof.Machine
end

