-- ==== Sys2Proof/Safety.lean ====
section
/-! DEFINITION. What counts as a safe state and a safe run, the machine's invariant, and the frame
predicates that statements use. -/

namespace Sys2Proof.Machine

/-- The fault latch is clear: the run has not ended (spec 70_reset_and_hazards.md R192). -/
def State.safe (s : State) : Prop := s.fault = none

/-- The state is at a retirement boundary with the latch clear, where `Decode` is admitted
(spec 40_cycle.md R92). -/
def State.ready (s : State) : Prop := s.complete = true ∧ s.fault = none

/-- A run of `n` retirements from `s` that finishes: it meets no fault, before its first step or in it
(spec 70_reset_and_hazards.md R192). -/
def SafeRun (n : Nat) (s : State) : Prop := ∃ t, afterRetirements n s = some t ∧ t.safe

/-- A run of events from Reset that may be observed where its events end (spec 70_reset_and_hazards.md R192). -/
def SafeEventRun (cfg : Config) (es : List Event) : Prop := ∃ n t, finalAfter cfg n es = some t ∧ t.safe

/-- The Operation in the slot has the total of its variant, and its counter never exceeds it
(spec 10_state.md R34). -/
def slotOk (cfg : Config) (s : State) : Prop :=
  ∀ o, s.op = some o → o.counter ≤ o.total ∧ o.total = cfg.pulseTotal o.variant

/-- A set latch holds a code that the opcode map does not assign, and the slot is then empty
(spec 40_cycle.md R94, 60_exceptions.md R160). -/
def latchOk (cfg : Config) (s : State) : Prop :=
  ∀ code pc, s.fault = some (.unknownOpcode code pc) →
    s.op = none ∧ decodeOpcode cfg.opcodeMap code = none

/-- The machine's invariant: RAM in canonical form, the Operation slot and the fault latch as the spec
says they are. -/
def State.Inv (cfg : Config) (s : State) : Prop :=
  s.ram.wf = true ∧ slotOk cfg s ∧ latchOk cfg s

/-- Every RAM cell reads as before. -/
def SameRam (s t : State) : Prop := ∀ x, t.memRead x = s.memRead x

/-- Every port reads as before. -/
def SamePorts (s t : State) : Prop :=
  t.inputPorts = s.inputPorts ∧ t.outputPorts = s.outputPorts

/-- The two flags are as before. -/
def SameFlags (s t : State) : Prop := t.c = s.c ∧ t.z = s.z

/-- The Operation that retired is complete in the slot: variant `v`, its default total, the latches `l`
(spec 10_state.md R34). -/
def RetiredAs (v : Variant) (l : Latches) (t : State) : Prop :=
  t.op = some { variant := v, counter := params.pulseTotal v, total := params.pulseTotal v, latches := l }

/-- The cells from `PC` on hold the list `cells`, the first at `PC` (spec 20_memory.md R52). -/
def HoldsAtPC (s : State) : Nat → List Nibble → Prop
  | _, [] => True
  | j, n :: rest => s.memRead (s.operandAddr j) = n ∧ HoldsAtPC s (j + 1) rest

/-- The architectural state, all that Decode and Dispatch leave alone (spec 40_cycle.md R95). -/
def SameArchitectural (s t : State) : Prop :=
  t.a = s.a ∧ t.c = s.c ∧ t.z = s.z ∧ t.pc = s.pc ∧ t.ram = s.ram ∧
    t.inputPorts = s.inputPorts ∧ t.outputPorts = s.outputPorts

end Sys2Proof.Machine
end

