-- ==== Sys2Proof/Certificates/Slice0/Obligations.lean ====
section
/-! DEFINITION. The statements about the model, one `def Obligations.<Name> : Prop` each; OBLIGATIONS.json lists them. -/

open Sys2Proof Sys2Proof.Machine

/-! ### Encoding -/

/-- 30_encoding.md sections 1-3: under every injective opcode map, decoding an encoded instruction, with any
cells after it, gives the instruction and those cells back. -/
def Obligations.EncodeThenDecodeUnderEveryOpcodeMap : Prop :=
  ∀ map : Variant → Nibble, injectiveMap map = true →
    ∀ (i : Instr) (rest : List Nibble), decodeWith map (encodeWith map i ++ rest) = .ok (i, rest)

/-- 30_encoding.md sections 1-3: under any opcode map, whatever the decoder reads, encoding it and appending the
cells it left over gives the cells it was given: no cell has two readings and none is skipped. -/
def Obligations.DecodeThenEncodeGivesTheCells : Prop :=
  ∀ (map : Variant → Nibble) (cells rest : List Nibble) (i : Instr),
    decodeWith map cells = .ok (i, rest) → encodeWith map i ++ rest = cells

/-- 30_encoding.md section 3: fifteen opcodes and sixteen codes leave exactly one code unassigned under any
injective map, and every other code yields the variant it is assigned to. -/
def Obligations.EveryInjectiveMapLeavesOneCode : Prop :=
  ∀ map : Variant → Nibble, injectiveMap map = true →
    (∃! code : Nibble, decodeOpcode map code = none) ∧
      ∀ (code : Nibble) (v : Variant), decodeOpcode map code = some v ↔ map v = code

/-- 30_encoding.md sections 1-3, under the default opcode map (the spec's decision D1, log entry 1): one word of
each format, a word of each corner, and the unassigned code. -/
def Obligations.SampleWordsDecode : Prop :=
  decode [0x1, 0x0, 0x4, 0xC] = .ok (.jmp 0x04C, []) ∧
    decode [0x6, 0xF, 0xE, 0xD, 0x0] = .ok (.st 0xFED, [0x0]) ∧
    decode [0xE, 0x7, 0x2] = .ok (.cmpi 0x7, [0x2]) ∧
    decode [0x0, 0x5] = .ok (.nop, [0x5]) ∧
    decode [0xF, 0x0, 0x0, 0x0] = .error (.unknownOpcode 0xF)

/-- R52: operand cells are at `(PC + j) mod 4096`, the advance of `PC` is modulo 4096, and a direct address is
always one of the 4096 cells. -/
def Obligations.AddressArithmeticIsModulo4096 : Prop :=
  ∀ s : State,
    (∀ j, 1 ≤ j → j ≤ 3 → (s.operandAddr j).toNat = (s.pc.toNat + j) % 4096) ∧
      (∀ (cfg : Config) (v : Variant),
        (s.nextPC cfg v).toNat = (s.pc.toNat + lengthOf cfg v) % 4096) ∧
      ∀ n1 n2 n3 : Nibble,
        (directAddress n1 n2 n3).toNat = 256 * n1.toNat + 16 * n2.toNat + n3.toNat ∧
          (directAddress n1 n2 n3).toNat < 4096

/-- 20_memory.md section 2 and 30_encoding.md section 2: the instruction fetched at `PC` has the immediate in the
cell after its opcode, or the address whose most significant nibble is at the lowest address. -/
def Obligations.FetchReadsOperandsInOrder : Prop :=
  ∀ (s : State) (v : Variant), s.memRead s.pc = opcodeMap v →
    s.fetchInstr = .ok (v.instr (s.memRead (s.pc + 1))
      (s.memRead (s.pc + 1) ++ s.memRead (s.pc + 2) ++ s.memRead (s.pc + 3)))

/-! ### The step -/

/-- 40_cycle.md sections 1 and 5: at a retirement boundary with the latch clear, if the cells from `PC` on are
the encoding of `i`, the step is `exec` of `i` on that state. `exec` itself moves `PC` past the instruction's cells. -/
def Obligations.StepRunsTheInstructionAtPC : Prop :=
  ∀ (s : State) (i : Instr), s.ready → HoldsAtPC s 0 (encode i) → step s = exec i s

/-- 60_exceptions.md sections 1-2 (the spec's decision D9): at a retirement boundary with the latch clear, a
code that is not assigned at `PC` gives a next state in which the latch records the code and `PC`, the slot is
empty, and nothing else has changed. -/
def Obligations.StepTakesUnknownOpcode : Prop :=
  ∀ s : State, s.ready → decodeOpcode opcodeMap (s.memRead s.pc) = none →
    step s = .next { s with op := none, fault := some (.unknownOpcode (s.memRead s.pc) s.pc) }

/-- The model's choice (log entry 6), from 40_cycle.md section 1: with the latch set and no Operation incomplete,
the driver has stopped and the step answers the latched fault. -/
def Obligations.StepStopsOnALatchedFault : Prop :=
  ∀ (s : State) (f : Fault), s.complete = true → s.fault = some f → step s = .fault f

/-- The model's choice (log entry 5), from 40_cycle.md section 1: a step from inside an instruction goes on
pulsing it, and ends in the state the whole instruction retires in. -/
def Obligations.StepFinishesALiveOperation : Prop :=
  ∀ (s : State) (v : Variant) (j : Nat), j < params.pulseTotal v →
    step (runPulses params j (s.startOperation params v)) = .next (retired params v s)

/-- 40_cycle.md section 5: for every legal choice of the parameters, after exactly `PULSE_TOTAL(V)` pulses from
the dispatch of `V` on `s`, the state is the phases of `V` performed in order on `s`. -/
def Obligations.PulsesReachTheRetiredState : Prop :=
  ∀ cfg : Config, cfg.wellFormed = true → ∀ (v : Variant) (s : State),
    runPulses cfg (cfg.pulseTotal v) (s.startOperation cfg v) = retired cfg v s

/-- 40_cycle.md section 5: the meaning of an instruction is its variant's phases, performed in order on a state
whose cells after `PC` hold its operands. -/
def Obligations.ExecIsThePhasesInOrder : Prop :=
  ∀ (i : Instr) (s : State), HoldsAtPC s 1 i.operandCells →
    exec i s = .next (retired params i.variant s)

/-- 40_cycle.md sections 3-4: `complete` turns true exactly at the total, whatever the state holds: no pulse
count depends on data. -/
def Obligations.CompleteExactlyAtTheTotal : Prop :=
  ∀ (cfg : Config) (v : Variant) (s : State) (j : Nat),
    (runPulses cfg j (s.startOperation cfg v)).complete = decide (cfg.pulseTotal v ≤ j)

/-- 10_state.md section 4: while an Operation is live `PC` keeps the address of its opcode cell; it changes only
at the final pulse. For every legal choice of the parameters. -/
def Obligations.PCKeepsTheOpcodeAddressWhileLive : Prop :=
  ∀ cfg : Config, cfg.wellFormed = true → ∀ (v : Variant) (s : State) (j : Nat),
    j < cfg.pulseTotal v → (runPulses cfg j (s.startOperation cfg v)).pc = s.pc

/-- 40_cycle.md sections 1 and 5: where `Decode` is admitted, the retirement-level step is the driver's round
through the block's events: `Decode`, then `Pulse` until `complete`. -/
def Obligations.StepIsOneDriverRound : Prop :=
  ∀ s : State, s.ready → step s = driverRound params s

/-- From a retirement boundary with the latch clear a step always has a next state, again at a retirement
boundary, and the latch is then set exactly when the opcode cell holds an unassigned code. -/
def Obligations.ReadyMachineAlwaysSteps : Prop :=
  ∀ s : State, s.ready →
    ∃ t, step s = .next t ∧ t.complete = true ∧
      (t.fault.isSome = true ↔ decodeOpcode opcodeMap (s.memRead s.pc) = none)

/-! ### The invariant -/

/-- Every step keeps the invariant: RAM in canonical form; the Operation in the slot has its variant's total and a
counter that does not exceed it; a latched fault holds an unassigned code and leaves the slot empty. -/
def Obligations.StepKeepsTheInvariant : Prop :=
  ∀ s t : State, s.Inv params → step s = .next t → t.Inv params

/-- Every event of the block keeps the invariant, for every choice of the parameters. -/
def Obligations.EveryEventKeepsTheInvariant : Prop :=
  ∀ (cfg : Config) (e : Event) (s t : State), s.Inv cfg → applyEvent cfg e s = .next t → t.Inv cfg

/-- The reset state meets the invariant, for every choice of the parameters, and is ready to step. -/
def Obligations.ResetMeetsTheInvariant : Prop :=
  (∀ cfg : Config, State.reset.Inv cfg) ∧ State.reset.ready

/-- 70_reset_and_hazards.md section 1: what `Reset` leaves. That the slot is empty and the latch clear is the spec's
decision D12 (log entry 16). -/
def Obligations.ResetZeroesTheMachine : Prop :=
  (∀ cfg : Config, ∀ s : State, s.boundaryOrFaulted = true →
      applyEvent cfg .reset s = .next State.reset) ∧
    (∀ r : RegSel, State.reset.harnessValue r = 0) ∧
    State.reset.op = none ∧ State.reset.fault = none

/-! ### Events -/

/-- R95: `Decode` and `Dispatch` change no architectural state, whether the code is known or unknown; only the
slot and, for an unknown code, the latch change. -/
def Obligations.DispatchChangesNoArchitecturalState : Prop :=
  ∀ (cfg : Config) (s t : State) (code : Nibble),
    (applyEvent cfg (.dispatch code) s = .next t ∨
        (applyEvent cfg .decode s = .next t ∧ code = s.memRead s.pc)) →
      SameArchitectural s t ∧ (decodeOpcode cfg.opcodeMap code ≠ none → t.fault = s.fault)

/-- 40_cycle.md section 2 and 60_exceptions.md section 1 (the spec's decisions D7, D9), for every opcode map: what an
admitted `Dispatch` does to the slot and the latch, and when it is refused, before the code is looked at. -/
def Obligations.DispatchStartsOrFaultsOrIsRefused : Prop :=
  ∀ (cfg : Config) (s : State) (code : Nibble),
    (s.complete = false → applyEvent cfg (.dispatch code) s = .refused .dispatchWhileLive) ∧
      (s.complete = true → s.fault ≠ none →
        applyEvent cfg (.dispatch code) s = .refused .dispatchWhileFaulted) ∧
      (s.complete = true → s.fault = none →
        ∃ t, applyEvent cfg (.dispatch code) s = .next t ∧
          (∀ v, decodeOpcode cfg.opcodeMap code = some v →
            t.op = some
              { variant := v, counter := 0, total := cfg.pulseTotal v, latches := ⟨0, 0, 0, 0, 0, 0⟩ } ∧
              t.fault = none) ∧
          (decodeOpcode cfg.opcodeMap code = none →
            t.op = none ∧ t.fault = some (.unknownOpcode code s.pc)))

/-- 60_exceptions.md section 2 (the spec's decision D9): once set, the latch keeps its fault through every event but
`Reset`; `Decode` and `Dispatch` are refused, `Pulse` changes nothing, and harness reads are still taken. That a harness
write is taken there too is the model's choice (log entry 7), from 70_reset_and_hazards.md section 3. -/
def Obligations.LatchedFaultStaysUntilReset : Prop :=
  ∀ (cfg : Config) (s : State) (f : Fault), latchOk cfg s → s.fault = some f →
    (∀ (e : Event) (t : State), e ≠ .reset → applyEvent cfg e s = .next t → t.fault = some f) ∧
      applyEvent cfg .decode s = .refused .dispatchWhileFaulted ∧
      (∀ code, applyEvent cfg (.dispatch code) s = .refused .dispatchWhileFaulted) ∧
      applyEvent cfg .pulse s = .next s ∧ applyEvent cfg .reset s = .next State.reset ∧
      (∀ r, applyEvent cfg (.read r) s = .next s ∧ harnessRead s r = .ok (s.harnessValue r)) ∧
      ∀ r v, applyEvent cfg (.write r v) s = .next (s.harnessWrite r v)

/-- 70_reset_and_hazards.md section 3 (the spec's decision D8): during a live, incomplete Operation every event but
`Pulse` is refused, each by its own name. -/
def Obligations.OnlyPulseRunsInsideAnInstruction : Prop :=
  ∀ (cfg : Config) (s : State), s.complete = false → s.fault = none →
    applyEvent cfg .reset s = .refused .resetWhileLive ∧
      applyEvent cfg .decode s = .refused .dispatchWhileLive ∧
      (∀ code, applyEvent cfg (.dispatch code) s = .refused .dispatchWhileLive) ∧
      (∀ r v, applyEvent cfg (.write r v) s = .refused .accessWhileLive) ∧
      (∀ r, applyEvent cfg (.read r) s = .refused .accessWhileLive ∧
        harnessRead s r = .error .accessWhileLive) ∧
      ∃ t, applyEvent cfg .pulse s = .next t

/-- R98: a pulse after completion changes no register, latch or counter, and `complete` stays true. -/
def Obligations.PulseAfterCompletionIsANoOp : Prop :=
  ∀ (cfg : Config) (s : State) (o : Operation), s.op = some o → o.counter = o.total →
    pulse cfg s = s ∧ (pulse cfg s).complete = true

/-- R97: a pulse of an incomplete Operation performs the action scheduled for its counter, if there is one, and
then adds one to the counter; a pulse with no scheduled action changes only the counter. -/
def Obligations.PulseActsThenCounts : Prop :=
  ∀ (cfg : Config) (s : State) (o : Operation), s.op = some o → o.counter < o.total →
    (∀ x, scheduledAction cfg o.variant o.counter = some x →
      pulse cfg s =
        { (performAction cfg o.variant x o.latches s).1 with
          op := some { o with
            counter := o.counter + 1,
            latches := (performAction cfg o.variant x o.latches s).2 } }) ∧
      (scheduledAction cfg o.variant o.counter = none →
        pulse cfg s = { s with op := some { o with counter := o.counter + 1 } })

/-- R108: the flags phase writes each flag of the variant's policy from its latch and no other, and does nothing
for a variant whose policy is empty. -/
def Obligations.FlagsPhaseFollowsThePolicy : Prop :=
  ∀ (v : Variant) (l : Latches) (s : State),
    (flagsPhase v l s).c = (if v ∈ [.stc, .add, .addi, .cmp, .cmpi] then l.cN else s.c) ∧
      (flagsPhase v l s).z = (if v ∈ [.nor, .add, .addi, .cmp, .cmpi] then l.zN else s.z) ∧
      flagsPhase v l s = { s with c := (flagsPhase v l s).c, z := (flagsPhase v l s).z } ∧
      (v ∉ [.stc, .nor, .add, .addi, .cmp, .cmpi] → flagsPhase v l s = s)

/-- 40_cycle.md section 4, the default schedule (the spec's decision D4, log entry 4): which pulse of each template
does what, every other pulse being a settle pulse. -/
def Obligations.DefaultScheduleIsTheTabled : Prop :=
  ∀ (v : Variant) (k : Nat),
    (v.template = .n → scheduledAction params v k = if k = 7 then some .pc else none) ∧
      (v.template = .i → scheduledAction params v k =
        if k = 8 then some .fetchImm else if k = 13 then some .execute
        else if k = 14 then some .flags else if k = 15 then some .pc else none) ∧
      (v.template = .d → scheduledAction params v k =
        if k = 8 then some .fetchN1 else if k = 16 then some .fetchN2
        else if k = 24 then some .fetchN3 else if k = 29 then some .execute
        else if k = 30 then some .flags else if k = 31 then some .pc else none)

/-- R20: a write of any integer to any register leaves the register holding the integer modulo two to the register's
width and signals no overflow; at a retirement boundary with the latch clear the write is taken. -/
def Obligations.HarnessWriteStoresModuloTheWidth : Prop :=
  ∀ (s : State) (r : RegSel) (v : Int), s.ram.wf = true →
    ((s.harnessWrite r v).harnessValue r : Int) = v % 2 ^ r.width ∧
      (s.harnessWrite r v).fault = s.fault ∧
      ∀ cfg : Config, s.complete = true → s.fault = none →
        applyEvent cfg (.write r v) s = .next (s.harnessWrite r v)

/-- 10_state.md section 8: a harness write changes no register but the one it names, and neither the slot nor the
latch. -/
def Obligations.HarnessWriteTouchesOneRegister : Prop :=
  ∀ (s : State) (r q : RegSel) (v : Int), s.ram.wf = true → q ≠ r →
    (s.harnessWrite r v).harnessValue q = s.harnessValue q ∧
      (s.harnessWrite r v).op = s.op ∧ (s.harnessWrite r v).fault = s.fault

/-- 10_state.md section 1: the two wrapping primitives of a register of any width. -/
def Obligations.IncrementAndDecrementWrap : Prop :=
  ∀ (w : Nat) (r : BitVec w),
    (increment r).toNat = (r.toNat + 1) % 2 ^ w ∧
      ((decrement r).toNat : Int) = ((r.toNat : Int) - 1) % 2 ^ w

/-! ### The meaning of each instruction -/

/-- 41_control.md section 2, NOP: only `PC` moves, by one cell. -/
def Obligations.NopOnlyAdvances : Prop :=
  ∀ s : State, ∃ t, exec .nop s = .next t ∧ t.pc = s.pc + 1 ∧
    t.a = s.a ∧ SameFlags s t ∧ SameRam s t ∧ SamePorts s t ∧ t.fault = s.fault ∧
    RetiredAs .nop emptyLatches t

/-- 41_control.md section 2, JMP: `PC` takes the address and nothing else changes. -/
def Obligations.JmpTakesTheAddress : Prop :=
  ∀ (addr : Addr) (s : State), ∃ t, exec (.jmp addr) s = .next t ∧ t.pc = addr ∧
    t.a = s.a ∧ SameFlags s t ∧ SameRam s t ∧ SamePorts s t ∧ t.fault = s.fault ∧
    RetiredAs .jmp (directLatches addr) t

/-- 41_control.md section 2, JC: the jump is taken exactly when `C` is 1; nothing but `PC` changes. -/
def Obligations.JcJumpsOnCarry : Prop :=
  ∀ (addr : Addr) (s : State), ∃ t, exec (.jc addr) s = .next t ∧
    (s.c = 1 → t.pc = addr) ∧ (s.c = 0 → t.pc = s.pc + 4) ∧
    t.a = s.a ∧ SameFlags s t ∧ SameRam s t ∧ SamePorts s t ∧ t.fault = s.fault ∧
    RetiredAs .jc (directLatches addr) t

/-- 41_control.md section 2, JZ: the jump is taken exactly when `Z` is 1; nothing but `PC` changes. -/
def Obligations.JzJumpsOnZero : Prop :=
  ∀ (addr : Addr) (s : State), ∃ t, exec (.jz addr) s = .next t ∧
    (s.z = 1 → t.pc = addr) ∧ (s.z = 0 → t.pc = s.pc + 4) ∧
    t.a = s.a ∧ SameFlags s t ∧ SameRam s t ∧ SamePorts s t ∧ t.fault = s.fault ∧
    RetiredAs .jz (directLatches addr) t

/-- 42_transfer.md section 2, LD: `A` takes the cell at the address; no flag changes. -/
def Obligations.LdLoadsTheCell : Prop :=
  ∀ (addr : Addr) (s : State), ∃ t, exec (.ld addr) s = .next t ∧
    t.a = s.memRead addr ∧ t.pc = s.pc + 4 ∧
    SameFlags s t ∧ SameRam s t ∧ SamePorts s t ∧ t.fault = s.fault ∧
    RetiredAs .ld (directLatches addr) t

/-- 42_transfer.md section 2, LDI: `A` takes the immediate; no flag changes. The advance of 2 is the spec's
resolution of conflict C1 (log entry 2). -/
def Obligations.LdiLoadsTheImmediate : Prop :=
  ∀ (imm : Nibble) (s : State), ∃ t, exec (.ldi imm) s = .next t ∧
    t.a = imm ∧ t.pc = s.pc + 2 ∧
    SameFlags s t ∧ SameRam s t ∧ SamePorts s t ∧ t.fault = s.fault ∧
    RetiredAs .ldi (immLatches imm) t

/-- 42_transfer.md section 2, ST: the cell at the address takes `A`; every other cell, `A` and the flags are
unchanged. -/
def Obligations.StStoresTheAccumulator : Prop :=
  ∀ (addr : Addr) (s : State), s.ram.wf = true → ∃ t, exec (.st addr) s = .next t ∧
    t.memRead addr = s.a ∧ (∀ x, x ≠ addr → t.memRead x = s.memRead x) ∧ t.pc = s.pc + 4 ∧
    t.a = s.a ∧ SameFlags s t ∧ SamePorts s t ∧ t.fault = s.fault ∧
    RetiredAs .st (directLatches addr) t

/-- 42_transfer.md section 2, STC: `C` takes bit 0 of the immediate, bits 3:1 are ignored; `Z` is unchanged. -/
def Obligations.StcSetsCarryFromBitZero : Prop :=
  ∀ (imm : Nibble) (s : State), ∃ t, exec (.stc imm) s = .next t ∧
    t.c.toNat = imm.toNat % 2 ∧ t.z = s.z ∧ t.pc = s.pc + 2 ∧
    t.a = s.a ∧ SameRam s t ∧ SamePorts s t ∧ t.fault = s.fault ∧
    RetiredAs .stc ((immLatches imm).withC t.c) t

/-- 42_transfer.md section 2, IN: `A` takes the named input port; no flag and no port changes. -/
def Obligations.InReadsThePort : Prop :=
  ∀ (port : Nibble) (s : State), ∃ t, exec (.inp port) s = .next t ∧
    t.a = s.portIn port ∧ t.pc = s.pc + 2 ∧
    SameFlags s t ∧ SameRam s t ∧ SamePorts s t ∧ t.fault = s.fault ∧
    RetiredAs .inp (immLatches port) t

/-- 42_transfer.md section 2, OUT: the named output port takes `A`; every other port, `A` and the flags are
unchanged. -/
def Obligations.OutWritesThePort : Prop :=
  ∀ (port : Nibble) (s : State), ∃ t, exec (.outp port) s = .next t ∧
    t.outputAt port = s.a ∧ (∀ x, x ≠ port → t.outputAt x = s.outputAt x) ∧ t.pc = s.pc + 2 ∧
    t.a = s.a ∧ t.inputPorts = s.inputPorts ∧ SameFlags s t ∧ SameRam s t ∧ t.fault = s.fault ∧
    RetiredAs .outp (immLatches port) t

/-- 43_alu.md section 2, NOR: `A` takes the complement of `A` or the cell, `Z` says whether it is 0; `C` is
unchanged. -/
def Obligations.NorWritesAAndZ : Prop :=
  ∀ (addr : Addr) (s : State), ∃ t, exec (.nor addr) s = .next t ∧
    t.a.toNat = 15 - (s.a ||| s.memRead addr).toNat ∧ (t.z = 1 ↔ t.a = 0) ∧ t.c = s.c ∧
    t.pc = s.pc + 4 ∧ SameRam s t ∧ SamePorts s t ∧ t.fault = s.fault ∧
    RetiredAs .nor ((directLatches addr).withZ t.z) t

/-- 43_alu.md section 2, ADD: `A` takes the sum modulo 16, `C` the carry out of bit 3, `Z` whether the result
is 0. -/
def Obligations.AddWritesSumCarryZero : Prop :=
  ∀ (addr : Addr) (s : State), ∃ t, exec (.add addr) s = .next t ∧
    t.a.toNat = (s.a.toNat + (s.memRead addr).toNat) % 16 ∧
    (t.c = 1 ↔ 16 ≤ s.a.toNat + (s.memRead addr).toNat) ∧ (t.z = 1 ↔ t.a = 0) ∧
    t.pc = s.pc + 4 ∧ SameRam s t ∧ SamePorts s t ∧ t.fault = s.fault ∧
    RetiredAs .add ((directLatches addr).withCZ t.c t.z) t

/-- 43_alu.md section 2, ADDI: as ADD with the immediate. -/
def Obligations.AddiWritesSumCarryZero : Prop :=
  ∀ (imm : Nibble) (s : State), ∃ t, exec (.addi imm) s = .next t ∧
    t.a.toNat = (s.a.toNat + imm.toNat) % 16 ∧
    (t.c = 1 ↔ 16 ≤ s.a.toNat + imm.toNat) ∧ (t.z = 1 ↔ t.a = 0) ∧
    t.pc = s.pc + 2 ∧ SameRam s t ∧ SamePorts s t ∧ t.fault = s.fault ∧
    RetiredAs .addi ((immLatches imm).withCZ t.c t.z) t

/-- 43_alu.md section 2, CMP: `C` says whether the cell is greater than `A`, `Z` whether they are equal; `A` is
unchanged. -/
def Obligations.CmpWritesBorrowAndEqual : Prop :=
  ∀ (addr : Addr) (s : State), ∃ t, exec (.cmp addr) s = .next t ∧
    (t.c = 1 ↔ s.a.toNat < (s.memRead addr).toNat) ∧ (t.z = 1 ↔ s.a = s.memRead addr) ∧
    t.a = s.a ∧ t.pc = s.pc + 4 ∧ SameRam s t ∧ SamePorts s t ∧ t.fault = s.fault ∧
    RetiredAs .cmp ((directLatches addr).withCZ t.c t.z) t

/-- 43_alu.md section 2, CMPI: as CMP with the immediate. -/
def Obligations.CmpiWritesBorrowAndEqual : Prop :=
  ∀ (imm : Nibble) (s : State), ∃ t, exec (.cmpi imm) s = .next t ∧
    (t.c = 1 ↔ s.a.toNat < imm.toNat) ∧ (t.z = 1 ↔ s.a = imm) ∧
    t.a = s.a ∧ t.pc = s.pc + 2 ∧ SameRam s t ∧ SamePorts s t ∧ t.fault = s.fault ∧
    RetiredAs .cmpi ((immLatches imm).withCZ t.c t.z) t

/-! ### Arithmetic laws -/

/-- R145: 4-bit unsigned addition with carry out and no carry in; the old `C` takes no part. -/
def Obligations.AdditionIsUnsignedWithCarryOut : Prop :=
  (∀ a b : Nibble,
    (sum5 a b).toNat = a.toNat + b.toNat ∧ (sum5 a b).toNat ≤ 30 ∧
      (addResult a b).toNat = (a.toNat + b.toNat) % 16 ∧
      (addCarry a b = 1 ↔ 16 ≤ a.toNat + b.toNat) ∧
      (zeroFlag (addResult a b) = 1 ↔ (a.toNat + b.toNat) % 16 = 0)) ∧
    ∀ (s : State) (v : Flag) (addr : Addr) (imm : Nibble),
      exec (.add addr) (s.setC v) = exec (.add addr) s ∧
        exec (.addi imm) (s.setC v) = exec (.addi imm) s

/-- 43_alu.md section 1, comparison: the borrow and the equality, also as bit 4 and bits 3:0 of the 5-bit
difference. -/
def Obligations.ComparisonIsA5BitSubtraction : Prop :=
  ∀ a b : Nibble,
    (cmpBorrow a b = 1 ↔ a.toNat < b.toNat) ∧ (cmpEqual a b = 1 ↔ a = b) ∧
      cmpBorrow a b = (a.setWidth 5 - b.setWidth 5).extractLsb' 4 1 ∧
      (cmpEqual a b = 1 ↔ (a.setWidth 5 - b.setWidth 5).extractLsb' 0 4 = 0#4)

/-- R147: NOR is bitwise on 4 bits, `Z` says whether the result is 0, and there is no carry or borrow. -/
def Obligations.NorIsBitwiseComplementOfOr : Prop :=
  (∀ a b : Nibble,
    norResult a b = ~~~(a ||| b) ∧ (norResult a b).toNat = 15 - (a ||| b).toNat ∧
      (∀ k < 4, (norResult a b).getLsbD k = !(a.getLsbD k || b.getLsbD k)) ∧
      (zeroFlag (norResult a b) = 1 ↔ norResult a b = 0)) ∧
    ∀ (s : State) (addr : Addr), ∃ t, exec (.nor addr) s = .next t ∧
      t.a = norResult s.a (s.memRead addr) ∧ t.z = zeroFlag t.a ∧ t.c = s.c

/-! ### Who writes and who reads what -/

/-- 10_state.md section 3: `A` is written only by LD, LDI, IN, NOR, ADD and ADDI; an instruction that is neither one of the readers of
`A` (ST, OUT, NOR, ADD, ADDI, CMP, CMPI) does the same whatever `A` holds. -/
def Obligations.AccumulatorWritersAndReaders : Prop :=
  ∀ (i : Instr) (s : State), ∃ t, exec i s = .next t ∧
    (i.variant ∉ [.ld, .ldi, .inp, .nor, .add, .addi] → t.a = s.a) ∧
    (i.variant ∉ [.st, .outp, .nor, .add, .addi, .cmp, .cmpi] → ∀ v : Nibble,
      exec i (s.setA v) = .next (if i.variant ∈ [.ld, .ldi, .inp] then t else t.setA v))

/-- R26: exactly ADD, ADDI, CMP, CMPI and STC write `C`, with the values the rule gives, each of them both 0 and 1;
only JC reads it. -/
def Obligations.CarryWritersAndReader : Prop :=
  (∀ (i : Instr) (s : State), ∃ t, exec i s = .next t ∧
    (∀ addr, i = .add addr → (t.c = 1 ↔ 16 ≤ s.a.toNat + (s.memRead addr).toNat)) ∧
    (∀ imm, i = .addi imm → (t.c = 1 ↔ 16 ≤ s.a.toNat + imm.toNat)) ∧
    (∀ addr, i = .cmp addr → (t.c = 1 ↔ s.a.toNat < (s.memRead addr).toNat)) ∧
    (∀ imm, i = .cmpi imm → (t.c = 1 ↔ s.a.toNat < imm.toNat)) ∧
    (∀ imm, i = .stc imm → t.c = imm.extractLsb' 0 1) ∧
    (i.variant ∉ [.add, .addi, .cmp, .cmpi, .stc] → t.c = s.c) ∧
    (i.variant ≠ .jc → ∀ v : Flag,
      exec i (s.setC v) =
        .next (if i.variant ∈ [.add, .addi, .cmp, .cmpi, .stc] then t else t.setC v))) ∧
    ∀ v : Variant, v ∈ [.add, .addi, .cmp, .cmpi, .stc] → ∀ b : Flag,
      ∃ (i : Instr) (s t : State), i.variant = v ∧ s.c = ~~~b ∧ exec i s = .next t ∧ t.c = b

/-- R27: exactly NOR, ADD, ADDI, CMP and CMPI write `Z`, with the values the rule gives, each of them both 0 and 1;
only JZ reads it. -/
def Obligations.ZeroWritersAndReader : Prop :=
  (∀ (i : Instr) (s : State), ∃ t, exec i s = .next t ∧
    (i.variant ∈ [.nor, .add, .addi] → (t.z = 1 ↔ t.a = 0)) ∧
    (∀ addr, i = .cmp addr → (t.z = 1 ↔ s.a = s.memRead addr)) ∧
    (∀ imm, i = .cmpi imm → (t.z = 1 ↔ s.a = imm)) ∧
    (i.variant ∉ [.nor, .add, .addi, .cmp, .cmpi] → t.z = s.z) ∧
    (i.variant ≠ .jz → ∀ v : Flag,
      exec i (s.setZ v) =
        .next (if i.variant ∈ [.nor, .add, .addi, .cmp, .cmpi] then t else t.setZ v))) ∧
    ∀ v : Variant, v ∈ [.nor, .add, .addi, .cmp, .cmpi] → ∀ b : Flag,
      ∃ (i : Instr) (s t : State), i.variant = v ∧ s.z = ~~~b ∧ exec i s = .next t ∧ t.z = b

/-- 10_state.md section 7 and 20_memory.md section 1: no instruction writes an input port and only IN reads one; only OUT
writes an output port and no instruction reads one, OUT itself included; at a retirement boundary the harness writes and
reads both arrays. That it does so with the latch set too is the model's choice for the write (log entry 7), from
70_reset_and_hazards.md section 3. -/
def Obligations.PortWritersAndReaders : Prop :=
  (∀ (i : Instr) (s : State), ∃ t, exec i s = .next t ∧ t.inputPorts = s.inputPorts ∧
    (i.variant ≠ .outp → t.outputPorts = s.outputPorts) ∧
    (i.variant ≠ .inp → ∀ p : Vector Nibble 16,
      exec i { s with inputPorts := p } = .next { t with inputPorts := p }) ∧
    (i.variant ≠ .outp → ∀ p : Vector Nibble 16,
      exec i { s with outputPorts := p } = .next { t with outputPorts := p }) ∧
    (∀ port, i = .outp port → ∀ p : Vector Nibble 16,
      exec i { s with outputPorts := p } =
        .next { t with outputPorts := p.set port.toNat s.a port.isLt })) ∧
    ∀ (cfg : Config) (s : State) (k v : Nibble), s.complete = true →
      (∃ t, applyEvent cfg (.write (.inputPort k) v.toNat) s = .next t ∧ t.portIn k = v ∧
        harnessRead t (.inputPort k) = .ok v.toNat) ∧
      ∃ t, applyEvent cfg (.write (.outputPort k) v.toNat) s = .next t ∧ t.outputAt k = v ∧
        harnessRead t (.outputPort k) = .ok v.toNat

/-- 20_memory.md section 1: ST is the only instruction that writes RAM, and it writes the one cell it names. -/
def Obligations.OnlyStWritesRam : Prop :=
  ∀ (i : Instr) (s : State), s.ram.wf = true → ∃ t, exec i s = .next t ∧
    ∀ x : Addr, i ≠ .st x → t.memRead x = s.memRead x

/-- R164: no instruction raises an exception once dispatched: its meaning has a next state with the latch as it was,
and no pulse of any Operation, under any parameters, sets the latch. -/
def Obligations.NoInstructionRaisesOnceDispatched : Prop :=
  (∀ (i : Instr) (s : State), ∃ t, exec i s = .next t ∧ t.fault = s.fault) ∧
    ∀ (cfg : Config) (s : State) (n : Nat), (runPulses cfg n s).fault = s.fault

/-- 20_memory.md section 7 (the spec's decision D4): a ST whose address is one of its own cells stores to the address
it was fetched with, changes nothing else it reads, and the next instruction is the one four cells on. -/
def Obligations.StoreIntoItsOwnCellsKeepsItsTarget : Prop :=
  ∀ (s : State) (addr : Addr) (j : Nat), s.ram.wf = true → s.ready → j ≤ 3 →
    addr = s.operandAddr j → HoldsAtPC s 0 (encode (.st addr)) →
      ∃ t, step s = .next t ∧ t.memRead (s.operandAddr j) = s.a ∧
        (∀ x, x ≠ s.operandAddr j → t.memRead x = s.memRead x) ∧ t.pc = s.pc + 4 ∧ t.ready

/-- 20_memory.md section 7: a store into the cell where the next instruction begins is seen by the very next
decode, with nothing in between. That a stored 0xF then takes UnknownOpcode and a stored 0x0 runs NOP holds under the
default opcode map (30_encoding.md section 3: the spec's decision D1, log entry 1) and 60_exceptions.md section 1. -/
def Obligations.StoreIsSeenByTheNextDecode : Prop :=
  ∀ (s : State) (addr : Addr), s.ram.wf = true → s.ready → addr = s.pc + 4 →
    HoldsAtPC s 0 (encode (.st addr)) →
      ∃ t, step s = .next t ∧ t.pc = addr ∧ t.fetchCells.head? = some s.a ∧
        (s.a = 0xF → step t = .next (t.raiseUnknownOpcode 0xF)) ∧
        (s.a = 0x0 → step t = exec .nop t)

/-! ### Runs -/

/-- 70_reset_and_hazards.md section 2, under the default opcode map (the spec's decision D1, log entry 1): a ready
machine whose RAM holds 0 everywhere runs NOP at every cell: after `n` retirements and `8 * n` pulses `PC` has advanced by `n`
modulo 4096, and `A`, the flags, RAM and the ports are unchanged. -/
def Obligations.UnloadedRamRunsNops : Prop :=
  ∀ (n : Nat) (s : State), s.ready → (∀ x, s.memRead x = 0) →
    pulsesOfRun n s = some (8 * n) ∧
      ∃ t, afterRetirements n s = some t ∧ t.pc.toNat = (s.pc.toNat + n) % 4096 ∧ t.ready ∧
        t.a = s.a ∧ SameFlags s t ∧ SameRam s t ∧ SamePorts s t

/-- 70_reset_and_hazards.md section 6 (the spec's decision D10), for runs of whole retirements from any state: a run
that has a final state is at a retirement boundary and has met no fault; the run to a stop address ends at the first
such boundary; a run that starts faulted or meets an unassigned code has no final state, and a state inside an instruction
is none; and from a ready state the run is a run of the driver's events, `Decode` and `Pulse`, with as many `Decode`s as
retirements and as many `Pulse`s as its pulse count. -/
def Obligations.FinishedRunMetNoFault : Prop :=
  ∀ s : State,
    (∀ (n : Nat) (t : State), afterRetirements n s = some t → t.ready) ∧
      (∀ (stop : Addr) (n m : Nat) (t : State), firstBoundaryAt stop n s = some (m, t) →
        t.ready ∧ t.pc = stop ∧ m ≤ n ∧ afterRetirements m s = some t ∧
          ∀ k u, k < m → afterRetirements k s = some u → u.pc ≠ stop) ∧
      (∀ (n m : Nat) (t : State), afterRetirements m s = some t →
        decodeOpcode opcodeMap (t.memRead t.pc) = none → m < n → afterRetirements n s = none) ∧
      (s.fault ≠ none → ∀ (n : Nat) (stop : Addr),
        afterRetirements n s = none ∧ firstBoundaryAt stop n s = none) ∧
      (s.complete = false → afterRetirements 0 s = none) ∧
      (s.ready → ∀ (n : Nat) (t : State), afterRetirements n s = some t →
        ∃ es : List Event, (∀ e ∈ es, e = .decode ∨ e = .pulse) ∧ es.count .decode = n ∧
          pulsesOfRun n s = some (es.count .pulse) ∧ runFrom params es s 0 = .going t n)

/-- 70_reset_and_hazards.md section 6 (the spec's decision D10), for runs as finite sequences of events from `Reset`,
under any parameters: a run observed after `n` retirements is at a retirement boundary, and neither it nor any part of it
from Reset on has met a fault; a run observed at a stop address is so at the first boundary where `PC` is that address, and
is the events up to there (that later events of the list are ignored is the model's choice, log entry 19); and a run that
reaches a fault has ended, whatever events follow, without a final state after any number of retirements. -/
def Obligations.EventRunFinishesOnlyWithoutFault : Prop :=
  ∀ (cfg : Config) (es : List Event),
    (∀ (n : Nat) (t : State), finalAfter cfg n es = some t →
      t.ready ∧ runEvents cfg es = .going t n ∧
        ∀ p, p <+: es → ∃ u k, runEvents cfg p = .going u k ∧ u.fault = none) ∧
      (∀ (stop : Addr) (n : Nat) (t : State), finalAtStop cfg stop es = some (n, t) →
        t.ready ∧ t.pc = stop ∧ ∃ p, p <+: es ∧ finalAfter cfg n p = some t ∧
          ∀ q k u, q <+: p → q ≠ p → finalAfter cfg k q = some u → u.pc ≠ stop) ∧
      ∀ (p : List Event) (f : Fault), p <+: es → runEvents cfg p = .ended f →
        runEvents cfg es = .ended f ∧ ∀ n, finalAfter cfg n es = none
end

