-- ==== Sys2Proof/Laws/Coding.lean ====
section
/-! SUPPORT. Addresses and their nibbles, and the decoder on opcode codes. -/

namespace Sys2Proof

@[simp] theorem addrN1_directAddress (n1 n2 n3 : Nibble) : addrN1 (directAddress n1 n2 n3) = n1 := by
  simp only [addrN1, directAddress]
  ext k hk
  simp only [BitVec.getElem_extractLsb', BitVec.getLsbD_append]
  rw [if_neg (by omega), if_neg (by omega), BitVec.getLsbD_eq_getElem (by omega)]
  congr 1
  omega

@[simp] theorem addrN2_directAddress (n1 n2 n3 : Nibble) : addrN2 (directAddress n1 n2 n3) = n2 := by
  simp only [addrN2, directAddress]
  ext k hk
  simp only [BitVec.getElem_extractLsb', BitVec.getLsbD_append]
  rw [if_neg (by omega), if_pos (by omega), BitVec.getLsbD_eq_getElem (by omega)]
  congr 1
  omega

@[simp] theorem addrN3_directAddress (n1 n2 n3 : Nibble) : addrN3 (directAddress n1 n2 n3) = n3 := by
  simp only [addrN3, directAddress]
  ext k hk
  simp only [BitVec.getElem_extractLsb', BitVec.getLsbD_append]
  rw [if_pos (by omega), BitVec.getLsbD_eq_getElem (by omega)]
  congr 1
  omega

/-- The value of a direct address (spec 20_memory.md R53). -/
theorem directAddress_toNat (n1 n2 n3 : Nibble) :
    (directAddress n1 n2 n3).toNat = 256 * n1.toNat + 16 * n2.toNat + n3.toNat := by
  have h2 := n2.isLt
  have h3 := n3.isLt
  simp only [directAddress, BitVec.toNat_append]
  rw [← Nat.shiftLeft_add_eq_or_of_lt (by omega), ← Nat.shiftLeft_add_eq_or_of_lt (by omega)]
  simp only [Nat.shiftLeft_eq]
  omega

/-- An address is the concatenation of its three nibbles. -/
@[simp] theorem directAddress_nibbles (a : Addr) :
    directAddress (addrN1 a) (addrN2 a) (addrN3 a) = a := by
  have ha := a.isLt
  apply BitVec.eq_of_toNat_eq
  rw [directAddress_toNat]
  simp only [addrN1, addrN2, addrN3, BitVec.extractLsb'_toNat, Nat.shiftRight_eq_div_pow]
  omega

/-- Every variant is listed. -/
theorem Variant.mem_all (v : Variant) : v ∈ Variant.all := by
  cases v <;> decide

/-- The decoder answers a variant only for the code the map gives that variant. -/
theorem decodeOpcode_sound {map : Variant → Nibble} {code : Nibble} {v : Variant}
    (h : decodeOpcode map code = some v) : map v = code := by
  simpa using List.find?_some h

/-- A code is unassigned exactly when no variant has it. -/
theorem decodeOpcode_eq_none {map : Variant → Nibble} {code : Nibble} :
    decodeOpcode map code = none ↔ ∀ v, map v ≠ code := by
  simp [decodeOpcode, List.find?_eq_none, Variant.mem_all]

/-- An injective map, as a function. -/
theorem injective_of_injectiveMap {map : Variant → Nibble} (h : injectiveMap map = true) :
    Function.Injective map := by
  intro u v e
  have hn : (Variant.all.map map).Nodup := by simpa [injectiveMap] using h
  exact List.inj_on_of_nodup_map hn (Variant.mem_all u) (Variant.mem_all v) e

end Sys2Proof
end

