-- ==== Sys2Proof/Laws/State.lean ====
section
/-! SUPPORT. One lemma per field per update of the state, and what reset holds. -/

namespace Sys2Proof.Machine

variable (s : State)

/-! ### `setA` -/

@[simp] theorem setA_a (v : Nibble) : (s.setA v).a = v := rfl
@[simp] theorem setA_c (v : Nibble) : (s.setA v).c = s.c := rfl
@[simp] theorem setA_z (v : Nibble) : (s.setA v).z = s.z := rfl
@[simp] theorem setA_pc (v : Nibble) : (s.setA v).pc = s.pc := rfl
@[simp] theorem setA_ram (v : Nibble) : (s.setA v).ram = s.ram := rfl
@[simp] theorem setA_inputPorts (v : Nibble) : (s.setA v).inputPorts = s.inputPorts := rfl
@[simp] theorem setA_outputPorts (v : Nibble) : (s.setA v).outputPorts = s.outputPorts := rfl
@[simp] theorem setA_op (v : Nibble) : (s.setA v).op = s.op := rfl
@[simp] theorem setA_fault (v : Nibble) : (s.setA v).fault = s.fault := rfl

/-! ### `setC` -/

@[simp] theorem setC_a (v : Flag) : (s.setC v).a = s.a := rfl
@[simp] theorem setC_c (v : Flag) : (s.setC v).c = v := rfl
@[simp] theorem setC_z (v : Flag) : (s.setC v).z = s.z := rfl
@[simp] theorem setC_pc (v : Flag) : (s.setC v).pc = s.pc := rfl
@[simp] theorem setC_ram (v : Flag) : (s.setC v).ram = s.ram := rfl
@[simp] theorem setC_inputPorts (v : Flag) : (s.setC v).inputPorts = s.inputPorts := rfl
@[simp] theorem setC_outputPorts (v : Flag) : (s.setC v).outputPorts = s.outputPorts := rfl
@[simp] theorem setC_op (v : Flag) : (s.setC v).op = s.op := rfl
@[simp] theorem setC_fault (v : Flag) : (s.setC v).fault = s.fault := rfl

/-! ### `setZ` -/

@[simp] theorem setZ_a (v : Flag) : (s.setZ v).a = s.a := rfl
@[simp] theorem setZ_c (v : Flag) : (s.setZ v).c = s.c := rfl
@[simp] theorem setZ_z (v : Flag) : (s.setZ v).z = v := rfl
@[simp] theorem setZ_pc (v : Flag) : (s.setZ v).pc = s.pc := rfl
@[simp] theorem setZ_ram (v : Flag) : (s.setZ v).ram = s.ram := rfl
@[simp] theorem setZ_inputPorts (v : Flag) : (s.setZ v).inputPorts = s.inputPorts := rfl
@[simp] theorem setZ_outputPorts (v : Flag) : (s.setZ v).outputPorts = s.outputPorts := rfl
@[simp] theorem setZ_op (v : Flag) : (s.setZ v).op = s.op := rfl
@[simp] theorem setZ_fault (v : Flag) : (s.setZ v).fault = s.fault := rfl

/-! ### `setCZ` -/

@[simp] theorem setCZ_a (x y : Flag) : (s.setCZ x y).a = s.a := rfl
@[simp] theorem setCZ_c (x y : Flag) : (s.setCZ x y).c = x := rfl
@[simp] theorem setCZ_z (x y : Flag) : (s.setCZ x y).z = y := rfl
@[simp] theorem setCZ_pc (x y : Flag) : (s.setCZ x y).pc = s.pc := rfl
@[simp] theorem setCZ_ram (x y : Flag) : (s.setCZ x y).ram = s.ram := rfl
@[simp] theorem setCZ_inputPorts (x y : Flag) : (s.setCZ x y).inputPorts = s.inputPorts := rfl
@[simp] theorem setCZ_outputPorts (x y : Flag) : (s.setCZ x y).outputPorts = s.outputPorts := rfl
@[simp] theorem setCZ_op (x y : Flag) : (s.setCZ x y).op = s.op := rfl
@[simp] theorem setCZ_fault (x y : Flag) : (s.setCZ x y).fault = s.fault := rfl

/-! ### `setPC` -/

@[simp] theorem setPC_a (v : Addr) : (s.setPC v).a = s.a := rfl
@[simp] theorem setPC_c (v : Addr) : (s.setPC v).c = s.c := rfl
@[simp] theorem setPC_z (v : Addr) : (s.setPC v).z = s.z := rfl
@[simp] theorem setPC_pc (v : Addr) : (s.setPC v).pc = v := rfl
@[simp] theorem setPC_ram (v : Addr) : (s.setPC v).ram = s.ram := rfl
@[simp] theorem setPC_inputPorts (v : Addr) : (s.setPC v).inputPorts = s.inputPorts := rfl
@[simp] theorem setPC_outputPorts (v : Addr) : (s.setPC v).outputPorts = s.outputPorts := rfl
@[simp] theorem setPC_op (v : Addr) : (s.setPC v).op = s.op := rfl
@[simp] theorem setPC_fault (v : Addr) : (s.setPC v).fault = s.fault := rfl

/-! ### `memWrite` -/

@[simp] theorem memWrite_a (x : Addr) (v : Nibble) : (s.memWrite x v).a = s.a := rfl
@[simp] theorem memWrite_c (x : Addr) (v : Nibble) : (s.memWrite x v).c = s.c := rfl
@[simp] theorem memWrite_z (x : Addr) (v : Nibble) : (s.memWrite x v).z = s.z := rfl
@[simp] theorem memWrite_pc (x : Addr) (v : Nibble) : (s.memWrite x v).pc = s.pc := rfl
@[simp] theorem memWrite_ram (x : Addr) (v : Nibble) : (s.memWrite x v).ram = s.ram.write x v := rfl
@[simp] theorem memWrite_inputPorts (x : Addr) (v : Nibble) : (s.memWrite x v).inputPorts = s.inputPorts := rfl
@[simp] theorem memWrite_outputPorts (x : Addr) (v : Nibble) : (s.memWrite x v).outputPorts = s.outputPorts := rfl
@[simp] theorem memWrite_op (x : Addr) (v : Nibble) : (s.memWrite x v).op = s.op := rfl
@[simp] theorem memWrite_fault (x : Addr) (v : Nibble) : (s.memWrite x v).fault = s.fault := rfl

/-! ### `portOut` -/

@[simp] theorem portOut_a (i v : Nibble) : (s.portOut i v).a = s.a := rfl
@[simp] theorem portOut_c (i v : Nibble) : (s.portOut i v).c = s.c := rfl
@[simp] theorem portOut_z (i v : Nibble) : (s.portOut i v).z = s.z := rfl
@[simp] theorem portOut_pc (i v : Nibble) : (s.portOut i v).pc = s.pc := rfl
@[simp] theorem portOut_ram (i v : Nibble) : (s.portOut i v).ram = s.ram := rfl
@[simp] theorem portOut_inputPorts (i v : Nibble) : (s.portOut i v).inputPorts = s.inputPorts := rfl
@[simp] theorem portOut_outputPorts (i v : Nibble) : (s.portOut i v).outputPorts = s.outputPorts.set i.toNat v i.isLt := rfl
@[simp] theorem portOut_op (i v : Nibble) : (s.portOut i v).op = s.op := rfl
@[simp] theorem portOut_fault (i v : Nibble) : (s.portOut i v).fault = s.fault := rfl

/-! ### `setInput` -/

@[simp] theorem setInput_a (i v : Nibble) : (s.setInput i v).a = s.a := rfl
@[simp] theorem setInput_c (i v : Nibble) : (s.setInput i v).c = s.c := rfl
@[simp] theorem setInput_z (i v : Nibble) : (s.setInput i v).z = s.z := rfl
@[simp] theorem setInput_pc (i v : Nibble) : (s.setInput i v).pc = s.pc := rfl
@[simp] theorem setInput_ram (i v : Nibble) : (s.setInput i v).ram = s.ram := rfl
@[simp] theorem setInput_inputPorts (i v : Nibble) : (s.setInput i v).inputPorts = s.inputPorts.set i.toNat v i.isLt := rfl
@[simp] theorem setInput_outputPorts (i v : Nibble) : (s.setInput i v).outputPorts = s.outputPorts := rfl
@[simp] theorem setInput_op (i v : Nibble) : (s.setInput i v).op = s.op := rfl
@[simp] theorem setInput_fault (i v : Nibble) : (s.setInput i v).fault = s.fault := rfl

/-! ### `retire` -/

@[simp] theorem retire_a (cfg : Config) (v : Variant) (l : Latches) (p : Addr) : (s.retire cfg v l p).a = s.a := rfl
@[simp] theorem retire_c (cfg : Config) (v : Variant) (l : Latches) (p : Addr) : (s.retire cfg v l p).c = s.c := rfl
@[simp] theorem retire_z (cfg : Config) (v : Variant) (l : Latches) (p : Addr) : (s.retire cfg v l p).z = s.z := rfl
@[simp] theorem retire_pc (cfg : Config) (v : Variant) (l : Latches) (p : Addr) : (s.retire cfg v l p).pc = p := rfl
@[simp] theorem retire_ram (cfg : Config) (v : Variant) (l : Latches) (p : Addr) : (s.retire cfg v l p).ram = s.ram := rfl
@[simp] theorem retire_inputPorts (cfg : Config) (v : Variant) (l : Latches) (p : Addr) : (s.retire cfg v l p).inputPorts = s.inputPorts := rfl
@[simp] theorem retire_outputPorts (cfg : Config) (v : Variant) (l : Latches) (p : Addr) : (s.retire cfg v l p).outputPorts = s.outputPorts := rfl
@[simp] theorem retire_op (cfg : Config) (v : Variant) (l : Latches) (p : Addr) : (s.retire cfg v l p).op = some ⟨v, cfg.pulseTotal v, cfg.pulseTotal v, l⟩ := rfl
@[simp] theorem retire_fault (cfg : Config) (v : Variant) (l : Latches) (p : Addr) : (s.retire cfg v l p).fault = s.fault := rfl

/-! ### `startOperation` -/

@[simp] theorem startOperation_a (cfg : Config) (v : Variant) : (s.startOperation cfg v).a = s.a := rfl
@[simp] theorem startOperation_c (cfg : Config) (v : Variant) : (s.startOperation cfg v).c = s.c := rfl
@[simp] theorem startOperation_z (cfg : Config) (v : Variant) : (s.startOperation cfg v).z = s.z := rfl
@[simp] theorem startOperation_pc (cfg : Config) (v : Variant) : (s.startOperation cfg v).pc = s.pc := rfl
@[simp] theorem startOperation_ram (cfg : Config) (v : Variant) : (s.startOperation cfg v).ram = s.ram := rfl
@[simp] theorem startOperation_inputPorts (cfg : Config) (v : Variant) : (s.startOperation cfg v).inputPorts = s.inputPorts := rfl
@[simp] theorem startOperation_outputPorts (cfg : Config) (v : Variant) : (s.startOperation cfg v).outputPorts = s.outputPorts := rfl
@[simp] theorem startOperation_op (cfg : Config) (v : Variant) : (s.startOperation cfg v).op = some ⟨v, 0, cfg.pulseTotal v, emptyLatches⟩ := rfl
@[simp] theorem startOperation_fault (cfg : Config) (v : Variant) : (s.startOperation cfg v).fault = s.fault := rfl

/-! ### `raiseUnknownOpcode` -/

@[simp] theorem raiseUnknownOpcode_a (k : Nibble) : (s.raiseUnknownOpcode k).a = s.a := rfl
@[simp] theorem raiseUnknownOpcode_c (k : Nibble) : (s.raiseUnknownOpcode k).c = s.c := rfl
@[simp] theorem raiseUnknownOpcode_z (k : Nibble) : (s.raiseUnknownOpcode k).z = s.z := rfl
@[simp] theorem raiseUnknownOpcode_pc (k : Nibble) : (s.raiseUnknownOpcode k).pc = s.pc := rfl
@[simp] theorem raiseUnknownOpcode_ram (k : Nibble) : (s.raiseUnknownOpcode k).ram = s.ram := rfl
@[simp] theorem raiseUnknownOpcode_inputPorts (k : Nibble) : (s.raiseUnknownOpcode k).inputPorts = s.inputPorts := rfl
@[simp] theorem raiseUnknownOpcode_outputPorts (k : Nibble) : (s.raiseUnknownOpcode k).outputPorts = s.outputPorts := rfl
@[simp] theorem raiseUnknownOpcode_op (k : Nibble) : (s.raiseUnknownOpcode k).op = none := rfl
@[simp] theorem raiseUnknownOpcode_fault (k : Nibble) : (s.raiseUnknownOpcode k).fault = some (.unknownOpcode k s.pc) := rfl

/-! ### `addToA` and `compareA` -/

@[simp] theorem addToA_a (m : Nibble) : (s.addToA m).a = addResult s.a m := rfl
@[simp] theorem addToA_c (m : Nibble) : (s.addToA m).c = addCarry s.a m := rfl
@[simp] theorem addToA_z (m : Nibble) : (s.addToA m).z = zeroFlag (addResult s.a m) := rfl
@[simp] theorem addToA_pc (m : Nibble) : (s.addToA m).pc = s.pc := rfl
@[simp] theorem addToA_ram (m : Nibble) : (s.addToA m).ram = s.ram := rfl
@[simp] theorem addToA_inputPorts (m : Nibble) : (s.addToA m).inputPorts = s.inputPorts := rfl
@[simp] theorem addToA_outputPorts (m : Nibble) : (s.addToA m).outputPorts = s.outputPorts := rfl
@[simp] theorem addToA_op (m : Nibble) : (s.addToA m).op = s.op := rfl
@[simp] theorem addToA_fault (m : Nibble) : (s.addToA m).fault = s.fault := rfl
@[simp] theorem compareA_a (m : Nibble) : (s.compareA m).a = s.a := rfl
@[simp] theorem compareA_c (m : Nibble) : (s.compareA m).c = cmpBorrow s.a m := rfl
@[simp] theorem compareA_z (m : Nibble) : (s.compareA m).z = cmpEqual s.a m := rfl
@[simp] theorem compareA_pc (m : Nibble) : (s.compareA m).pc = s.pc := rfl
@[simp] theorem compareA_ram (m : Nibble) : (s.compareA m).ram = s.ram := rfl
@[simp] theorem compareA_inputPorts (m : Nibble) : (s.compareA m).inputPorts = s.inputPorts := rfl
@[simp] theorem compareA_outputPorts (m : Nibble) : (s.compareA m).outputPorts = s.outputPorts := rfl
@[simp] theorem compareA_op (m : Nibble) : (s.compareA m).op = s.op := rfl
@[simp] theorem compareA_fault (m : Nibble) : (s.compareA m).fault = s.fault := rfl

/-! ### `complete` and `pulsesLeft` -/

theorem complete_of_op_none (h : s.op = none) : s.complete = true := by
  simp [State.complete, h]

theorem complete_of_op_some {o : Operation} (h : s.op = some o) :
    s.complete = decide (o.total ≤ o.counter) := by
  simp [State.complete, h]

@[simp] theorem complete_retire (cfg : Config) (v : Variant) (l : Latches) (p : Addr) :
    (s.retire cfg v l p).complete = true := by
  simp [State.complete]

theorem pulsesLeft_of_op_some {o : Operation} (h : s.op = some o) :
    s.pulsesLeft = o.total - o.counter := by
  simp [State.pulsesLeft, h]

@[simp] theorem pulsesLeft_startOperation (cfg : Config) (v : Variant) :
    (s.startOperation cfg v).pulsesLeft = cfg.pulseTotal v := by
  simp [State.pulsesLeft]

theorem complete_iff_pulsesLeft : s.complete = true ↔ s.pulsesLeft = 0 := by
  cases h : s.op with
  | none => simp [State.complete, State.pulsesLeft, h]
  | some o => simp [State.complete, State.pulsesLeft, h, Nat.sub_eq_zero_iff_le]

/-! ### Reset -/

@[simp] theorem reset_memRead (x : Addr) : State.reset.memRead x = 0 := rfl

end Sys2Proof.Machine
end

