-- ==== Sys2Proof/Laws/Memory.lean ====
section
/-! SUPPORT. RAM and ports: read after write, what a write leaves alone, and the canonical form. -/

namespace Sys2Proof.Machine

/-! ### Cell lists in canonical form -/

theorem cellsWf_cons {lo k : Nat} {b : BitVec 8} {rest : List Host.Cell} :
    cellsWf lo ((k, b) :: rest) = true ↔
      lo ≤ k ∧ k < ramCells ∧ b ≠ 0#8 ∧ b.toNat < 16 ∧ cellsWf (k + 1) rest = true := by
  simp [cellsWf, and_assoc]

theorem cellsWf_mono {lo hi : Nat} {l : List Host.Cell} (h : cellsWf hi l = true) (hle : lo ≤ hi) :
    cellsWf lo l = true := by
  cases l with
  | nil => rfl
  | cons x rest =>
    obtain ⟨k, b⟩ := x
    rw [cellsWf_cons] at h ⊢
    exact ⟨hle.trans h.1, h.2⟩

/-- An address below the canonical form's first one is not listed. -/
theorem lookupCell_below {k lo : Nat} {l : List Host.Cell} (h : cellsWf lo l = true) (hk : k < lo) :
    lookupCell k l = 0#8 := by
  induction l generalizing lo with
  | nil => rfl
  | cons x rest ih =>
    obtain ⟨j, b⟩ := x
    rw [cellsWf_cons] at h
    have hne : k ≠ j := by omega
    simp only [lookupCell, hne, if_false]
    exact ih h.2.2.2.2 (by omega)

theorem lookupCell_storeCell_same {lo k : Nat} {b : BitVec 8} {l : List Host.Cell}
    (h : cellsWf lo l = true) : lookupCell k (storeCell k b l) = b := by
  induction l generalizing lo with
  | nil => by_cases hb : b = 0#8 <;> simp [storeCell, lookupCell, hb]
  | cons x rest ih =>
    obtain ⟨j, y⟩ := x
    rw [cellsWf_cons] at h
    obtain ⟨-, -, -, -, hr⟩ := h
    rcases Nat.lt_trichotomy k j with hlt | rfl | hgt
    · have hne : k ≠ j := by omega
      by_cases hb : b = 0#8
      · simp only [storeCell, hlt, hb, if_true, lookupCell, hne, if_false]
        exact lookupCell_below hr (by omega)
      · simp [storeCell, hlt, hb, lookupCell]
    · by_cases hb : b = 0#8
      · simp only [storeCell, Nat.lt_irrefl, hb, if_true, if_false]
        exact lookupCell_below hr (by omega)
      · simp [storeCell, hb, lookupCell]
    · have hne : k ≠ j := by omega
      have hnl : ¬ k < j := by omega
      simp only [storeCell, hnl, hne, if_false, lookupCell]
      exact ih hr

theorem lookupCell_storeCell_other {lo k x : Nat} {b : BitVec 8} {l : List Host.Cell}
    (h : cellsWf lo l = true) (hx : x ≠ k) : lookupCell x (storeCell k b l) = lookupCell x l := by
  induction l generalizing lo with
  | nil => by_cases hb : b = 0#8 <;> simp [storeCell, lookupCell, hb, hx]
  | cons y rest ih =>
    obtain ⟨j, y⟩ := y
    rw [cellsWf_cons] at h
    obtain ⟨-, -, -, -, hr⟩ := h
    rcases Nat.lt_trichotomy k j with hlt | rfl | hgt
    · by_cases hb : b = 0#8 <;> simp [storeCell, hlt, hb, lookupCell, hx]
    · by_cases hb : b = 0#8 <;> simp [storeCell, hb, lookupCell, hx]
    · have hne : k ≠ j := by omega
      have hnl : ¬ k < j := by omega
      simp only [storeCell, hnl, hne, if_false, lookupCell]
      rw [ih hr]

theorem storeCell_wf {lo k : Nat} {b : BitVec 8} {l : List Host.Cell} (h : cellsWf lo l = true)
    (hlo : lo ≤ k) (hk : k < ramCells) (hb : b.toNat < 16) :
    cellsWf lo (storeCell k b l) = true := by
  induction l generalizing lo with
  | nil =>
    by_cases h0 : b = 0#8
    · simp [storeCell, h0, cellsWf]
    · simp only [storeCell, h0, if_false, cellsWf_cons]
      exact ⟨hlo, hk, h0, hb, rfl⟩
  | cons x rest ih =>
    obtain ⟨j, y⟩ := x
    have hw := h
    rw [cellsWf_cons] at h
    obtain ⟨hj, hj', hy, hy', hr⟩ := h
    rcases Nat.lt_trichotomy k j with hlt | rfl | hgt
    · by_cases h0 : b = 0#8
      · simpa [storeCell, hlt, h0] using hw
      · simp only [storeCell, hlt, h0, if_true, if_false]
        rw [cellsWf_cons, cellsWf_cons]
        exact ⟨hlo, hk, h0, hb, hlt, hj', hy, hy', hr⟩
    · by_cases h0 : b = 0#8
      · simp only [storeCell, Nat.lt_irrefl, h0, if_true, if_false]
        exact cellsWf_mono hr (by omega)
      · simp only [storeCell, Nat.lt_irrefl, h0, if_true, if_false]
        rw [cellsWf_cons]
        exact ⟨hj, hk, h0, hb, hr⟩
    · have hne : k ≠ j := by omega
      have hnl : ¬ k < j := by omega
      simp only [storeCell, hnl, hne, if_false]
      rw [cellsWf_cons]
      exact ⟨hj, hj', hy, hy', ih hr (by omega)⟩

/-! ### RAM -/

/-- A cell reads as it was last written (spec 20_memory.md R59). -/
theorem Memory.read_write_same {m : Memory} (h : m.wf = true) (x : Addr) (v : Nibble) :
    (m.write x v).read x = v := by
  simp only [Memory.read, Memory.write, lookupCell_storeCell_same (show cellsWf 0 m.cells = true from h)]
  bv_omega

/-- A write leaves every other cell alone (spec 20_memory.md R55). -/
theorem Memory.read_write_other {m : Memory} (h : m.wf = true) {x y : Addr} (hxy : y ≠ x)
    (v : Nibble) : (m.write x v).read y = m.read y := by
  have hne : y.toNat ≠ x.toNat := fun e => hxy (BitVec.eq_of_toNat_eq e)
  simp only [Memory.read, Memory.write,
    lookupCell_storeCell_other (show cellsWf 0 m.cells = true from h) hne]

/-- Both facts in one: what a cell reads as after a write. -/
theorem Memory.read_write {m : Memory} (h : m.wf = true) (x y : Addr) (v : Nibble) :
    (m.write x v).read y = if y = x then v else m.read y := by
  split
  · subst y; exact Memory.read_write_same h x v
  · exact Memory.read_write_other h ‹_› v

/-- A write keeps the canonical form. -/
theorem Memory.write_wf {m : Memory} (h : m.wf = true) (x : Addr) (v : Nibble) :
    (m.write x v).wf = true :=
  storeCell_wf h (Nat.zero_le _) x.isLt (by
    have := v.isLt
    simp only [BitVec.toNat_setWidth]
    omega)

/-- The RAM of the reset state is in canonical form. -/
theorem reset_ram_wf : State.reset.ram.wf = true := rfl

/-- What `MemRead` answers after `MemWrite` (spec 00_scope.md R9). -/
theorem memRead_memWrite {s : State} (h : s.ram.wf = true) (x y : Addr) (v : Nibble) :
    (s.memWrite x v).memRead y = if y = x then v else s.memRead y :=
  Memory.read_write h x y v

/-! ### Ports -/

/-- What the harness reads from an output port after `PortOut` (spec 00_scope.md R9, 10_state.md R31). -/
theorem outputAt_portOut (s : State) (i j v : Nibble) :
    (s.portOut i v).outputAt j = if j = i then v else s.outputAt j := by
  simp only [State.outputAt, State.portOut, Vector.getElem_set]
  by_cases h : j = i
  · simp [h]
  · have hne : i.toNat ≠ j.toNat := fun e => h (BitVec.eq_of_toNat_eq e.symm)
    simp [h, hne]

/-- What IN reads from an input port after a harness write (spec 20_memory.md R64). -/
theorem portIn_setInput (s : State) (i j v : Nibble) :
    (s.setInput i v).portIn j = if j = i then v else s.portIn j := by
  simp only [State.portIn, State.setInput, Vector.getElem_set]
  by_cases h : j = i
  · simp [h]
  · have hne : i.toNat ≠ j.toNat := fun e => h (BitVec.eq_of_toNat_eq e.symm)
    simp [h, hne]

end Sys2Proof.Machine
end

