-- ==== Sys2Proof/Laws/Operations.lean ====
section
/-! SUPPORT. For each shared operation, once, everything it can do: the actions of a pulse, a pulse, a run of
pulses, the dispatcher, a meaning, a step. -/

namespace Sys2Proof.Machine

/-! ### The phases -/

/-- The execute phase leaves the latch, the slot, the input ports, `PC` and the flags alone, and RAM too but for
ST's one write. -/
theorem executePhase_frame (v : Variant) (l : Latches) (s : State) :
    (executePhase v l s).1.fault = s.fault ∧ (executePhase v l s).1.op = s.op ∧
      (executePhase v l s).1.inputPorts = s.inputPorts ∧ (executePhase v l s).1.pc = s.pc ∧
      (executePhase v l s).1.c = s.c ∧ (executePhase v l s).1.z = s.z ∧
      ((executePhase v l s).1.ram = s.ram ∨ (executePhase v l s).1.ram = s.ram.write l.addr s.a) := by
  cases v <;> simp [executePhase]

/-- The flags phase leaves everything but the flags alone. -/
theorem flagsPhase_frame (v : Variant) (l : Latches) (s : State) :
    flagsPhase v l s = { s with c := (flagsPhase v l s).c, z := (flagsPhase v l s).z } := by
  cases v <;> rfl

/-- The pc phase leaves everything but `PC` alone. -/
theorem pcPhase_frame (cfg : Config) (v : Variant) (l : Latches) (s : State) :
    pcPhase cfg v l s = { s with pc := (pcPhase cfg v l s).pc } := by
  cases v <;> rfl

/-- No action touches the latch, the slot or the input ports, and RAM changes by at most one write. -/
theorem performAction_frame (cfg : Config) (v : Variant) (x : PulseAction) (l : Latches) (s : State) :
    (performAction cfg v x l s).1.fault = s.fault ∧ (performAction cfg v x l s).1.op = s.op ∧
      (performAction cfg v x l s).1.inputPorts = s.inputPorts ∧
      ((performAction cfg v x l s).1.ram = s.ram ∨
        ∃ a n, (performAction cfg v x l s).1.ram = s.ram.write a n) := by
  cases x with
  | execute =>
    obtain ⟨hf, ho, hi, -, -, -, hr⟩ := executePhase_frame v l s
    exact ⟨hf, ho, hi, hr.imp_right fun h => ⟨_, _, h⟩⟩
  | flags =>
    simp only [performAction]
    rw [flagsPhase_frame]
    exact ⟨rfl, rfl, rfl, .inl rfl⟩
  | pc =>
    simp only [performAction]
    rw [pcPhase_frame]
    exact ⟨rfl, rfl, rfl, .inl rfl⟩
  | _ => exact ⟨rfl, rfl, rfl, .inl rfl⟩

/-- Only the pc action moves `PC`. -/
theorem performAction_pc {x : PulseAction} (h : x ≠ .pc) (cfg : Config) (v : Variant) (l : Latches)
    (s : State) : (performAction cfg v x l s).1.pc = s.pc := by
  cases x with
  | pc => exact absurd rfl h
  | execute => exact (executePhase_frame v l s).2.2.2.1
  | flags =>
    simp only [performAction]
    rw [flagsPhase_frame]
  | _ => rfl

/-- No action looks at the Operation slot: it does the same whatever the slot holds. -/
theorem performAction_op (cfg : Config) (v : Variant) (x : PulseAction) (l : Latches) (s : State)
    (o : Option Operation) :
    performAction cfg v x l { s with op := o } =
      ({ (performAction cfg v x l s).1 with op := o }, (performAction cfg v x l s).2) := by
  cases x <;> cases v <;> rfl

/-! ### A pulse -/

theorem pulse_of_none {cfg : Config} {s : State} (h : s.op = none) : pulse cfg s = s := by
  simp [pulse, h]

theorem pulse_of_live {cfg : Config} {s : State} {o : Operation} (h : s.op = some o)
    (hk : o.counter < o.total) : pulse cfg s = advanceOperation cfg o s := by
  simp [pulse, h, hk]

theorem pulse_of_complete {cfg : Config} {s : State} (h : s.complete = true) : pulse cfg s = s := by
  cases ho : s.op with
  | none => exact pulse_of_none ho
  | some o =>
    have hk : ¬ o.counter < o.total := by
      simpa [complete_of_op_some s ho] using h
    simp [pulse, ho, hk]

/-- Everything a pulse can do: nothing, or advance the incomplete Operation in the slot. -/
theorem pulse_cases (cfg : Config) (s : State) :
    (s.complete = true ∧ pulse cfg s = s) ∨
      ∃ o, s.op = some o ∧ o.counter < o.total ∧ pulse cfg s = advanceOperation cfg o s := by
  cases ho : s.op with
  | none => exact .inl ⟨complete_of_op_none s ho, pulse_of_none ho⟩
  | some o =>
    by_cases hk : o.counter < o.total
    · exact .inr ⟨o, rfl, hk, pulse_of_live ho hk⟩
    · have hc : s.complete = true := by simpa [complete_of_op_some s ho] using hk
      exact .inl ⟨hc, pulse_of_complete hc⟩

/-- The slot after an advance: the same variant and total, the counter one further. -/
theorem advanceOperation_op (cfg : Config) (o : Operation) (s : State) :
    ∃ l, (advanceOperation cfg o s).op = some { o with counter := o.counter + 1, latches := l } :=
  ⟨_, rfl⟩

/-- What an advance leaves alone. -/
theorem advanceOperation_frame (cfg : Config) (o : Operation) (s : State) :
    (advanceOperation cfg o s).fault = s.fault ∧
      (advanceOperation cfg o s).inputPorts = s.inputPorts ∧
      ((advanceOperation cfg o s).ram = s.ram ∨
        ∃ a n, (advanceOperation cfg o s).ram = s.ram.write a n) := by
  unfold advanceOperation
  cases scheduledAction cfg o.variant o.counter with
  | none => exact ⟨rfl, rfl, .inl rfl⟩
  | some x =>
    obtain ⟨hf, -, hi, hr⟩ := performAction_frame cfg o.variant x o.latches s
    exact ⟨hf, hi, hr⟩

/-! ### A run of pulses -/

theorem runPulses_add (cfg : Config) (m n : Nat) (s : State) :
    runPulses cfg (m + n) s = runPulses cfg n (runPulses cfg m s) := by
  induction m generalizing s with
  | zero => simp [runPulses]
  | succ m ih => rw [Nat.succ_add]; exact ih (pulse cfg s)

theorem runPulses_of_complete {cfg : Config} {s : State} (h : s.complete = true) (n : Nat) :
    runPulses cfg n s = s := by
  induction n with
  | zero => rfl
  | succ n ih => simpa [runPulses, pulse_of_complete h] using ih

/-- What every pulse keeps, a run of pulses keeps. -/
theorem runPulses_keeps {cfg : Config} (P : State → Prop) (hp : ∀ s, P s → P (pulse cfg s)) (n : Nat)
    {s : State} (h : P s) : P (runPulses cfg n s) := by
  induction n generalizing s with
  | zero => exact h
  | succ n ih => exact ih (hp s h)

/-! ### The dispatcher -/

/-- Everything `Dispatch` can do where it is taken: start the assigned variant, or raise the exception. -/
theorem dispatchCode_cases (cfg : Config) (code : Nibble) (s : State) :
    (∃ v, decodeOpcode cfg.opcodeMap code = some v ∧
        s.dispatchCode cfg code = s.startOperation cfg v) ∨
      (decodeOpcode cfg.opcodeMap code = none ∧
        s.dispatchCode cfg code = s.raiseUnknownOpcode code) := by
  cases h : decodeOpcode cfg.opcodeMap code with
  | none => exact .inr ⟨rfl, by simp [State.dispatchCode, h]⟩
  | some v => exact .inl ⟨v, rfl, by simp [State.dispatchCode, h]⟩

/-! ### A meaning -/

/-- Everything a meaning can do: it retires its variant, leaves the latch and the input ports alone, and RAM too
but for ST's one write. -/
theorem exec_cases (i : Instr) (s : State) :
    ∃ (u : State) (l : Latches) (p : Addr), exec i s = .next (u.retire params i.variant l p) ∧ u.fault = s.fault ∧
      u.inputPorts = s.inputPorts ∧
      (u.ram = s.ram ∨ ∃ addr, i = .st addr ∧ u.ram = s.ram.write addr s.a) := by
  cases i with
  | st addr => exact ⟨_, _, _, rfl, rfl, rfl, .inr ⟨addr, rfl, rfl⟩⟩
  | _ => exact ⟨_, _, _, rfl, rfl, rfl, .inl rfl⟩

/-- Everything a step can do: run the instruction at `PC`, take the exception, answer a latched fault, or pulse
an incomplete Operation to its completion. -/
theorem step_cases (s : State) :
    (s.complete = true ∧ s.fault = none ∧ ∃ i, s.fetchInstr = .ok i ∧ step s = exec i s) ∨
      (s.complete = true ∧ s.fault = none ∧ (∃ e, s.fetchInstr = .error e) ∧
        step s = .next (s.raiseUnknownOpcode (s.memRead s.pc))) ∨
      (∃ f, s.complete = true ∧ s.fault = some f ∧ step s = .fault f) ∨
      (s.complete = false ∧ step s = .next (runPulses params s.pulsesLeft s)) := by
  cases hc : s.complete with
  | false => exact .inr (.inr (.inr ⟨rfl, by simp [step, driverStep, hc]⟩))
  | true =>
    cases hf : s.fault with
    | some f => exact .inr (.inr (.inl ⟨f, rfl, rfl, by simp [step, driverStep, hc, hf]⟩))
    | none =>
      cases hi : s.fetchInstr with
      | ok i => exact .inl ⟨rfl, rfl, i, rfl, by simp [step, driverStep, hc, hf, hi]⟩
      | error e => exact .inr (.inl ⟨rfl, rfl, ⟨e, rfl⟩, by simp [step, driverStep, hc, hf, hi]⟩)

end Sys2Proof.Machine
end

