-- ==== Sys2Proof/Laws/PerInstr.lean ====
section
/-! SUPPORT. A per-instruction family: the shape of every encoding under the default opcode map. -/

namespace Sys2Proof.Laws.EncodingShape

/-- The encoding is as long as the variant's length says, and its first cell is the variant's opcode
(spec 30_encoding.md R70-R74, R80). -/
def Statement (i : Instr) : Prop :=
  (encode i).length = Machine.lengthOf Machine.params i.variant ∧
    (encode i).head? = some (opcodeMap i.variant)

theorem nop : Statement .nop := ⟨rfl, rfl⟩
theorem jmp (addr : Addr) : Statement (.jmp addr) := ⟨rfl, rfl⟩
theorem jc (addr : Addr) : Statement (.jc addr) := ⟨rfl, rfl⟩
theorem jz (addr : Addr) : Statement (.jz addr) := ⟨rfl, rfl⟩
theorem ld (addr : Addr) : Statement (.ld addr) := ⟨rfl, rfl⟩
theorem ldi (imm : Nibble) : Statement (.ldi imm) := ⟨rfl, rfl⟩
theorem st (addr : Addr) : Statement (.st addr) := ⟨rfl, rfl⟩
theorem stc (imm : Nibble) : Statement (.stc imm) := ⟨rfl, rfl⟩
theorem inp (port : Nibble) : Statement (.inp port) := ⟨rfl, rfl⟩
theorem outp (port : Nibble) : Statement (.outp port) := ⟨rfl, rfl⟩
theorem nor (addr : Addr) : Statement (.nor addr) := ⟨rfl, rfl⟩
theorem add (addr : Addr) : Statement (.add addr) := ⟨rfl, rfl⟩
theorem addi (imm : Nibble) : Statement (.addi imm) := ⟨rfl, rfl⟩
theorem cmp (addr : Addr) : Statement (.cmp addr) := ⟨rfl, rfl⟩
theorem cmpi (imm : Nibble) : Statement (.cmpi imm) := ⟨rfl, rfl⟩

end Sys2Proof.Laws.EncodingShape
end

