-- ==== Sys2Proof/Laws/Run.lean ====
section
/-! SUPPORT. Runs: what an observable state is, and everything one event or one retirement of a run can do. -/

namespace Sys2Proof.Machine

/-- A run may be observed exactly where the machine is ready. -/
theorem observable_iff_ready (s : State) : s.observable = true ↔ s.ready := by
  simp [State.observable, State.ready]

/-- A run may be observed at a stop address exactly where the machine is ready there. -/
theorem stopsAt_iff (s : State) (stop : Addr) : s.stopsAt stop = true ↔ s.ready ∧ s.pc = stop := by
  simp [State.stopsAt, observable_iff_ready]

@[simp] theorem observable_of_fault {s : State} {f : Fault} (h : s.fault = some f) :
    s.observable = false := by
  simp [State.observable, h]

@[simp] theorem countRetirement_reset (s t : State) (n : Nat) : countRetirement .reset s t n = 0 := rfl

@[simp] theorem countRetirement_decode (s t : State) (n : Nat) : countRetirement .decode s t n = n := rfl

/-- A pulse retires an instruction exactly where it makes `complete` true. -/
theorem countRetirement_pulse (s t : State) (n : Nat) :
    countRetirement .pulse s t n = if s.complete = false ∧ t.complete = true then n + 1 else n := by
  simp [countRetirement]

/-! ### Runs of events -/

/-- A run that has reached a fault has ended, whatever events follow. -/
theorem runFrom_of_fault {cfg : Config} {s : State} {f : Fault} (h : s.fault = some f)
    (es : List Event) (n : Nat) : runFrom cfg es s n = .ended f := by
  cases es <;> simp [runFrom, h]

theorem runFrom_nil {cfg : Config} {s : State} (h : s.fault = none) (n : Nat) :
    runFrom cfg [] s n = .going s n := by
  simp [runFrom, h]

/-- An event that is taken, from a state without a fault. -/
theorem runFrom_cons_next {cfg : Config} {s t : State} {e : Event} (h : s.fault = none)
    (he : applyEvent cfg e s = .next t) (es : List Event) (n : Nat) :
    runFrom cfg (e :: es) s n = runFrom cfg es t (countRetirement e s t n) := by
  simp [runFrom, h, he]

/-- Everything a run can still be doing where its events end: going, without a fault. -/
theorem runFrom_going {cfg : Config} {es : List Event} {s t : State} {n k : Nat}
    (h : runFrom cfg es s n = .going t k) : s.fault = none ∧ t.fault = none := by
  induction es generalizing s n with
  | nil =>
    cases hf : s.fault with
    | some f => rw [runFrom_of_fault hf] at h; cases h
    | none => rw [runFrom_nil hf] at h; cases h; exact ⟨rfl, hf⟩
  | cons e es ih =>
    cases hf : s.fault with
    | some f => rw [runFrom_of_fault hf] at h; cases h
    | none =>
      cases he : applyEvent cfg e s with
      | next u => rw [runFrom_cons_next hf he] at h; exact ⟨rfl, (ih h).2⟩
      | fault f => simp [runFrom, hf, he] at h
      | refused r => simp [runFrom, hf, he] at h

/-- A run goes on where its first part stands; a part that has ended or was refused settles the whole. -/
theorem runFrom_append (cfg : Config) (p q : List Event) (s : State) (n : Nat) :
    runFrom cfg (p ++ q) s n =
      match runFrom cfg p s n with
      | .going t k => runFrom cfg q t k
      | .ended f => .ended f
      | .refused r => .refused r := by
  induction p generalizing s n with
  | nil =>
    cases hf : s.fault with
    | some f => simp [runFrom_of_fault hf]
    | none => simp [runFrom_nil hf]
  | cons e p ih =>
    cases hf : s.fault with
    | some f => simp [runFrom_of_fault hf]
    | none =>
      cases he : applyEvent cfg e s with
      | next u => rw [List.cons_append, runFrom_cons_next hf he, runFrom_cons_next hf he]; exact ih u _
      | fault f => simp [runFrom, hf, he]
      | refused r => simp [runFrom, hf, he]

/-- Everything a run observed after `n` retirements is. -/
theorem finalAfter_eq_some {cfg : Config} {n : Nat} {es : List Event} {t : State} :
    finalAfter cfg n es = some t ↔ runEvents cfg es = .going t n ∧ t.observable = true := by
  unfold finalAfter
  cases runEvents cfg es with
  | going u k =>
    by_cases hu : u.observable = true <;> by_cases hk : k = n <;> simp [hu, hk] <;> rintro rfl <;>
      simp [hu]
  | ended f => simp
  | refused r => simp

/-! ### Runs of whole retirements -/

theorem afterRetirements_succ {s t : State} (h : step s = .next t) (n : Nat) :
    afterRetirements (n + 1) s = afterRetirements n t := by
  simp [afterRetirements, h]

theorem pulsesOfRun_succ {s t : State} (h : step s = .next t) (n : Nat) :
    pulsesOfRun (n + 1) s = (pulsesOfRun n t).map fun k => stepPulses s t + k := by
  simp [pulsesOfRun, h]

end Sys2Proof.Machine
end

