-- ==== Sys2Proof/Tests/Slice0.lean ====
section
/-! SUPPORT. Tests with results taken from the spec (95_test_vectors.md, the encoding tables and the rules' own
examples), the refusals of the well-formedness checks, and a witness for the hypotheses of every statement that has any. -/

namespace Sys2Proof.Tests

open Sys2Proof Sys2Proof.Machine

/-- The state a step or event leads to, if it leads to one. -/
def after : Host.Outcome State Fault Refusal → Option State
  | .next s => some s
  | _ => none

/-- The refusal of an event, if it is refused. -/
def refusal : Host.Outcome State Fault Refusal → Option Refusal
  | .refused r => some r
  | _ => none

/-- A machine after Reset with `PC`, `A`, `C`, `Z` and some RAM cells written by the harness. -/
def machine (pc : Addr) (a : Nibble) (c z : Flag) (cells : List Host.Cell) : State :=
  { State.reset with pc := pc, a := a, c := c, z := z, ram := ⟨cells⟩ }

/-- `A`, `C`, `Z` and `PC`. -/
def regs (s : State) : Nibble × Flag × Flag × Addr := (s.a, s.c, s.z, s.pc)

/-- A step, seen through `regs`. -/
def stepRegs (s : State) : Option (Nibble × Flag × Flag × Addr) := (after (step s)).map regs

/-! ### Decoding: words written out from 30_encoding.md R71-R77 -/

theorem test_decode_nop : decode [0b0000] = .ok (.nop, []) := by decide
theorem test_decode_jmp : decode [0b0001, 0b0000, 0b0100, 0b1100] = .ok (.jmp 0x04C, []) := by decide
theorem test_decode_jc : decode [0b0010, 0b1010, 0b1011, 0b1100] = .ok (.jc 0xABC, []) := by decide
theorem test_decode_jz : decode [0b0011, 0b0000, 0b0000, 0b1110] = .ok (.jz 0x00E, []) := by decide
theorem test_decode_ld : decode [0b0100, 0b0000, 0b0010, 0b0001] = .ok (.ld 0x021, []) := by decide
theorem test_decode_ldi : decode [0b0101, 0b1001] = .ok (.ldi 0x9, []) := by decide
theorem test_decode_st : decode [0b0110, 0b0001, 0b0010, 0b0011] = .ok (.st 0x123, []) := by decide
theorem test_decode_stc : decode [0b0111, 0b1110] = .ok (.stc 0xE, []) := by decide
theorem test_decode_in : decode [0b1000, 0b0010] = .ok (.inp 0x2, []) := by decide
theorem test_decode_out : decode [0b1001, 0b1111] = .ok (.outp 0xF, []) := by decide
theorem test_decode_nor : decode [0b1010, 0b0000, 0b0100, 0b1100] = .ok (.nor 0x04C, []) := by decide
theorem test_decode_add : decode [0b1011, 0b1111, 0b0000, 0b0001] = .ok (.add 0xF01, []) := by decide
theorem test_decode_addi : decode [0b1100, 0b1111] = .ok (.addi 0xF, []) := by decide
theorem test_decode_cmp : decode [0b1101, 0b0001, 0b0000, 0b1000] = .ok (.cmp 0x108, []) := by decide
theorem test_decode_cmpi : decode [0b1110, 0b0111] = .ok (.cmpi 0x7, []) := by decide
theorem test_decode_unassigned : decode [0b1111, 0b0000] = .error (.unknownOpcode 0xF) := by decide
theorem test_decode_short : decode [0b0001, 0b0000] = .error (.truncated .jmp) := by decide
theorem test_decode_empty : decode [] = .error .noCells := by decide

/-- `JMP 0x04C` is the listing `1 0 4 C` (30_encoding.md R81). -/
theorem test_encode_jmp : encode (.jmp 0x04C) = [0x1, 0x0, 0x4, 0xC] := by decide

theorem test_table_word : decodeTableWord 16 0xC401 = some (.jmp 0x04C) := by decide
theorem test_table_word_short : decodeTableWord 8 0x95 = some (.ldi 0x9) := by decide

/-- From reset, a placed LDI 9 is the next instruction run. -/
theorem test_withFetchWord :
    stepRegs (State.reset.withFetchWord 8 0x95) = some (0x9, 0, 0, 0x002) := by decide

/-! ### The checks of WellFormed.lean refuse -/

/-- Instructions have no check: every operand value is legal (R79). -/
theorem test_every_operand_is_legal :
    (Instr.stc 0xF).wellFormed = true ∧ (Instr.jmp 0xFFF).wellFormed = true := by decide

theorem test_params_wellFormed : params.wellFormed = true := by decide

theorem test_map_not_injective : injectiveMap (fun _ => 0x0) = false := by decide

theorem test_config_refuses_map :
    { params with opcodeMap := fun _ => 0x0 }.wellFormed = false := by decide

theorem test_config_refuses_lenImm : { params with lenImm := 3 }.wellFormed = false := by decide

theorem test_config_refuses_nop_total :
    { params with
      pulseTotal := fun v => if v = Variant.nop then 9 else params.pulseTotal v,
      schedule := fun v => if v = Variant.nop then [(8, .pc)] else params.schedule v }.wellFormed = false := by
  decide

theorem test_schedule_refuses_order :
    scheduleFits .ldi 16 [(8, .execute), (13, .fetchImm), (14, .flags), (15, .pc)] = false := by decide

theorem test_schedule_refuses_indices :
    scheduleFits .ldi 16 [(8, .fetchImm), (8, .execute), (14, .flags), (15, .pc)] = false := by decide

theorem test_schedule_refuses_early_pc :
    scheduleFits .ldi 16 [(8, .fetchImm), (12, .execute), (13, .flags), (14, .pc)] = false := by decide

theorem test_schedule_refuses_no_pulse : scheduleFits .nop 0 [(0, .pc)] = false := by decide

/-- The canonical form refuses a listed 0, a value above a nibble, and addresses that do not rise. -/
theorem test_memory_wf_refuses :
    Memory.wf ⟨[(1, 0)]⟩ = false ∧ Memory.wf ⟨[(1, 16)]⟩ = false ∧
      Memory.wf ⟨[(2, 1), (2, 1)]⟩ = false ∧ Memory.wf ⟨[(4096, 1)]⟩ = false := by decide

/-! ### Control (95_test_vectors.md S3-S5, C-1 to C-5) -/

theorem test_nop_wraps : stepRegs (machine 0xFFF 0 0 0 []) = some (0, 0, 0, 0x000) := by decide

/-- S3: NOP is incomplete after 7 pulses, complete after the 8th with `PC` at 1. -/
theorem test_nop_pulses :
    (runPulses params 7 (State.reset.startOperation params .nop)).complete = false ∧
      (runPulses params 7 (State.reset.startOperation params .nop)).pc = 0 ∧
      (runPulses params 8 (State.reset.startOperation params .nop)).complete = true ∧
      (runPulses params 8 (State.reset.startOperation params .nop)).pc = 1 := by decide

theorem test_jmp : stepRegs (machine 0 0 0 0 [(0, 0x1), (2, 0x4), (3, 0xC)]) = some (0, 0, 0, 0x04C) := by
  decide

theorem test_jmp_operands_wrap :
    stepRegs (machine 0xFFD 0 0 0 [(0, 0xC), (0xFFD, 0x1), (0xFFE, 0xA), (0xFFF, 0xB)]) =
      some (0, 0, 0, 0xABC) := by decide

theorem test_jc_falls_through :
    stepRegs (machine 0xFFD 0 0 1 [(0, 0xC), (0xFFD, 0x2), (0xFFE, 0xA), (0xFFF, 0xB)]) =
      some (0, 0, 1, 0x001) := by decide

theorem test_jc_taken :
    stepRegs (machine 0xFFD 0 1 0 [(0, 0xC), (0xFFD, 0x2), (0xFFE, 0xA), (0xFFF, 0xB)]) =
      some (0, 1, 0, 0xABC) := by decide

theorem test_jz_ignores_carry :
    stepRegs (machine 0 0 1 0 [(0, 0x3), (2, 0x4), (3, 0xC)]) = some (0, 1, 0, 0x004) := by decide

theorem test_jz_taken :
    stepRegs (machine 0 0 0 1 [(0, 0x3), (2, 0x4), (3, 0xC)]) = some (0, 0, 1, 0x04C) := by decide

/-! ### Data transfer (95_test_vectors.md T-1 to T-11) -/

theorem test_ld_own_opcode_cell :
    stepRegs (machine 0x100 0 0 0 [(0x100, 0x4), (0x101, 0x1)]) = some (0x4, 0, 0, 0x104) := by decide

theorem test_ld_keeps_zero_flag :
    stepRegs (machine 0 5 0 1 [(0, 0x4), (2, 0x4), (3, 0xC)]) = some (0, 0, 1, 0x004) := by decide

theorem test_ldi_wraps :
    stepRegs (machine 0xFFF 0 0 0 [(0, 0x6), (0xFFF, 0x5)]) = some (0x6, 0, 0, 0x001) := by decide

theorem test_st_into_own_operand_cell :
    (after (step (machine 0 9 0 0 [(0, 0x6), (3, 0x3)]))).map (fun s => (s.memRead 0x003, s.pc)) =
      some (0x9, 0x004) := by decide

theorem test_st :
    (after (step (machine 0 7 1 1 [(0, 0x6), (2, 0x4), (3, 0xC)]))).map
      (fun s => (s.memRead 0x04C, regs s)) = some (0x7, 0x7, 1, 1, 0x004) := by decide

theorem test_stc_clears : stepRegs (machine 0 0 1 1 [(0, 0x7), (1, 0xE)]) = some (0, 0, 1, 0x002) := by decide

theorem test_stc_sets : stepRegs (machine 0 0 0 0 [(0, 0x7), (1, 0xF)]) = some (0, 1, 0, 0x002) := by decide

theorem test_in :
    (after (step ((machine 0 0 0 0 [(0, 0x8), (1, 0xF)]).setInput 0xF 0xB))).map
      (fun s => (s.portIn 0xF, regs s)) = some (0xB, 0xB, 0, 0, 0x002) := by decide

theorem test_out :
    (after (step (machine 0 0xD 0 0 [(0, 0x9), (1, 0xF)]))).map
      (fun s => (s.outputAt 0xF, s.outputAt 0xE, regs s)) = some (0xD, 0, 0xD, 0, 0, 0x002) := by decide

/-! ### Arithmetic and logic (95_test_vectors.md S8, S10-S13, A-2 to A-20) -/

theorem test_nor :
    stepRegs (machine 0 0x0 0 0 [(0, 0xA), (2, 0x4), (3, 0xC), (0x4C, 0x5)]) = some (0xA, 0, 0, 4) := by
  decide

theorem test_nor_zero_keeps_carry :
    stepRegs (machine 0 0xF 1 0 [(0, 0xA), (2, 0x4), (3, 0xC)]) = some (0x0, 1, 1, 4) := by decide

theorem test_add_carries :
    stepRegs (machine 0 0xF 0 0 [(0, 0xB), (2, 0x4), (3, 0xC), (0x4C, 0x4)]) = some (0x3, 1, 0, 4) := by
  decide

theorem test_add_has_no_carry_in :
    stepRegs (machine 0 1 1 0 [(0, 0xB), (2, 0x4), (3, 0xC), (0x4C, 0x1)]) = some (0x2, 0, 0, 4) := by
  decide

theorem test_addi_no_carry : stepRegs (machine 0 0 1 1 [(0, 0xC), (1, 0xF)]) = some (0xF, 0, 0, 2) := by decide

theorem test_addi_wraps_to_zero :
    stepRegs (machine 0 1 0 0 [(0, 0xC), (1, 0xF)]) = some (0x0, 1, 1, 2) := by decide

theorem test_cmp_equal :
    stepRegs (machine 0 4 1 0 [(0, 0xD), (2, 0x4), (3, 0xC), (0x4C, 0x4)]) = some (0x4, 0, 1, 4) := by decide

theorem test_cmp_borrow :
    stepRegs (machine 0 1 0 1 [(0, 0xD), (2, 0x4), (3, 0xC), (0x4C, 0xF)]) = some (0x1, 1, 0, 4) := by decide

theorem test_cmpi_equal : stepRegs (machine 0 0xF 1 0 [(0, 0xE), (1, 0xF)]) = some (0xF, 0, 1, 2) := by decide

theorem test_cmpi_borrow : stepRegs (machine 0 3 0 0 [(0, 0xE), (1, 0x5)]) = some (0x3, 1, 0, 2) := by decide

/-! ### Events, pulses and the fault (95_test_vectors.md sections 2.1 and 2.2) -/

/-- V1: the machine of `Decode` at an unassigned code. -/
def faulted : State :=
  { machine 0x123 0 0 0 [(0x123, 0xF)] with fault := some (.unknownOpcode 0xF 0x123) }

theorem test_decode_event_faults :
    after (applyEvent params .decode (machine 0x123 0 0 0 [(0x123, 0xF)])) = some faulted := by decide

theorem test_step_faults_likewise :
    after (step (machine 0x123 0 0 0 [(0x123, 0xF)])) = some faulted := by decide

theorem test_decode_while_faulted :
    refusal (applyEvent params .decode faulted) = some .dispatchWhileFaulted := by decide

theorem test_pulse_while_faulted : after (applyEvent params .pulse faulted) = some faulted := by decide

theorem test_reset_while_faulted : after (applyEvent params .reset faulted) = some State.reset := by decide

theorem test_pulse_when_fresh : after (applyEvent params .pulse State.reset) = some State.reset := by decide

/-- V6, V7: LDI after 5 pulses. -/
def inside : State := runPulses params 5 (State.reset.startOperation params .ldi)

theorem test_refused_inside :
    refusal (applyEvent params .decode inside) = some .dispatchWhileLive ∧
      refusal (applyEvent params (.write .a 3) inside) = some .accessWhileLive ∧
      refusal (applyEvent params .reset inside) = some .resetWhileLive := by decide

/-- V8, V9: the 16th pulse completes CMPI and the 32nd ST. -/
theorem test_pulse_totals :
    (runPulses params 15 (State.reset.startOperation params .cmpi)).complete = false ∧
      (runPulses params 16 (State.reset.startOperation params .cmpi)).complete = true ∧
      (runPulses params 31 (State.reset.startOperation params .st)).complete = false ∧
      (runPulses params 32 (State.reset.startOperation params .st)).complete = true := by decide

/-- The machine of the pulse-level trace: ADD 0x04C with `A = F`. -/
def traced : State :=
  (machine 0 0xF 0 0 [(0, 0xB), (2, 0x4), (3, 0xC), (0x4C, 0x4)]).startOperation params .add

theorem test_trace_before_execute :
    regs (runPulses params 29 traced) = (0xF, 0, 0, 0x000) ∧
      (runPulses params 25 traced).op.map (fun o => (o.latches.n1, o.latches.n2, o.latches.n3)) =
        some (0x0, 0x4, 0xC) := by decide

theorem test_trace_from_execute :
    regs (runPulses params 30 traced) = (0x3, 0, 0, 0x000) ∧
      regs (runPulses params 31 traced) = (0x3, 1, 0, 0x000) ∧
      regs (runPulses params 32 traced) = (0x3, 1, 0, 0x004) := by decide

/-- Harness writes wrap to the register's width (95_test_vectors.md 2.1). -/
theorem test_harness_writes_wrap :
    (State.reset.harnessWrite .a (-1)).a = 0xF ∧ (State.reset.harnessWrite .c 5).c = 1 ∧
      (State.reset.harnessWrite .z 2).z = 0 ∧ (State.reset.harnessWrite .pc (-1)).pc = 0xFFF ∧
      (State.reset.harnessWrite (.ram 7) 0x1234).memRead 7 = 0x4 := by decide

theorem test_register_wraps : increment (0xFFF : Addr) = 0 ∧ decrement (0x0 : Nibble) = 0xF := by decide

/-! ### Witnesses: the hypotheses of the statements can be met -/

/-- EncodeThenDecodeUnderEveryOpcodeMap, EveryInjectiveMapLeavesOneCode. -/
theorem witness_injective_map : injectiveMap opcodeMap = true := by decide

/-- EncodeThenDecodeUnderEveryOpcodeMap holds of maps other than the default one too. -/
theorem witness_other_injective_map : injectiveMap (fun v => 0xF - opcodeMap v) = true := by decide

theorem witness_DecodeThenEncodeGivesTheCells :
    decodeWith opcodeMap [0x1, 0x0, 0x4, 0xC, 0x7] = .ok (.jmp 0x04C, [0x7]) := by decide

/-- AddressArithmeticIsModulo4096 at both ends of `j`, wrapping. -/
theorem witness_AddressArithmeticIsModulo4096 :
    (1 ≤ 1 ∧ 1 ≤ 3 ∧ (machine 0xFFF 0 0 0 []).operandAddr 1 = 0x000) ∧
      (1 ≤ 3 ∧ 3 ≤ 3 ∧ (machine 0xFFF 0 0 0 []).operandAddr 3 = 0x002) := by decide

theorem witness_FetchReadsOperandsInOrder :
    (machine 0xFFE 0 0 0 [(0xFFE, 0x5)]).memRead (machine 0xFFE 0 0 0 [(0xFFE, 0x5)]).pc =
      opcodeMap .ldi := by decide

/-- A ready machine with `LD 0x04C` at the top of RAM. -/
def readyLd : State := machine 0xFFE 0 0 0 [(0, 0x4), (1, 0xC), (0xFFE, 0x4)]

theorem witness_StepRunsTheInstructionAtPC :
    readyLd.ready ∧ HoldsAtPC readyLd 0 (encode (.ld 0x04C)) :=
  ⟨⟨by decide, rfl⟩, by decide, by decide, by decide, by decide, trivial⟩

theorem witness_ExecIsThePhasesInOrder : HoldsAtPC readyLd 1 (Instr.ld 0x04C).operandCells :=
  ⟨by decide, by decide, by decide, trivial⟩

theorem witness_StepTakesUnknownOpcode :
    (machine 0 0 0 0 [(0, 0xF)]).ready ∧
      decodeOpcode opcodeMap ((machine 0 0 0 0 [(0, 0xF)]).memRead 0) = none :=
  ⟨⟨by decide, rfl⟩, by decide⟩

theorem witness_StepStopsOnALatchedFault :
    faulted.complete = true ∧ faulted.fault = some (.unknownOpcode 0xF 0x123) := by decide

/-- StepFinishesALiveOperation and PCKeepsTheOpcodeAddressWhileLive at both ends of `j`. -/
theorem witness_pulse_index : 0 < params.pulseTotal .nop ∧ 31 < params.pulseTotal .jmp := by decide

/-- PulsesReachTheRetiredState, PCKeepsTheOpcodeAddressWhileLive: the other advance of `LEN_I` is legal too. -/
theorem witness_legal_parameters :
    params.wellFormed = true ∧ { params with lenImm := 1 }.wellFormed = true := by decide

/-- StepIsOneDriverRound, ReadyMachineAlwaysSteps, FinishedRunMetNoFault. -/
theorem witness_ready : readyLd.ready := ⟨by decide, rfl⟩

/-- ReadyMachineAlwaysSteps: both sides of its last clause occur. -/
theorem witness_ReadyMachineAlwaysSteps :
    decodeOpcode opcodeMap (readyLd.memRead readyLd.pc) = some .ld ∧
      decodeOpcode opcodeMap ((machine 0 0 0 0 [(0, 0xF)]).memRead 0) = none := by decide

/-- StepKeepsTheInvariant: a machine inside an instruction meets the invariant and steps. -/
theorem witness_StepKeepsTheInvariant : inside.Inv params ∧ (after (step inside)).isSome = true := by
  refine ⟨⟨by decide, ?_, ?_⟩, by decide⟩
  · intro o h
    have e : inside.op = some ⟨.ldi, 5, 16, emptyLatches⟩ := by decide
    rw [e] at h
    cases h
    decide
  · intro code pc h
    have e : inside.fault = none := by decide
    rw [e] at h
    cases h

/-- EveryEventKeepsTheInvariant: a faulted machine meets it, and Reset and Pulse are taken there. -/
theorem witness_EveryEventKeepsTheInvariant :
    faulted.Inv params ∧ (after (applyEvent params .pulse faulted)).isSome = true ∧
      (after (applyEvent params (.dispatch 0x5) State.reset)).isSome = true := by
  refine ⟨⟨by decide, ?_, ?_⟩, by decide, by decide⟩
  · intro o h
    cases h
  · intro code pc h
    cases h
    exact ⟨rfl, by decide⟩

/-- ResetZeroesTheMachine: at a boundary and faulted. -/
theorem witness_ResetZeroesTheMachine :
    readyLd.boundaryOrFaulted = true ∧ faulted.boundaryOrFaulted = true := by decide

/-- DispatchChangesNoArchitecturalState: both events, a known and an unknown code. -/
theorem witness_DispatchChangesNoArchitecturalState :
    (after (applyEvent params (.dispatch 0x0) readyLd)).isSome = true ∧
      (after (applyEvent params (.dispatch 0xF) readyLd)).isSome = true ∧
      (after (applyEvent params .decode readyLd)).isSome = true ∧
      decodeOpcode params.opcodeMap 0x0 ≠ none := by decide

/-- DispatchStartsOrFaultsOrIsRefused: one state for each of its clauses, and a code for each of the last one's. -/
theorem witness_DispatchStartsOrFaultsOrIsRefused :
    inside.complete = false ∧ (faulted.complete = true ∧ faulted.fault ≠ none) ∧
      (readyLd.complete = true ∧ readyLd.fault = none) ∧
      decodeOpcode params.opcodeMap 0xE = some .cmpi ∧ decodeOpcode params.opcodeMap 0xF = none := by
  decide

theorem witness_LatchedFaultStaysUntilReset :
    latchOk params faulted ∧ faulted.fault = some (.unknownOpcode 0xF 0x123) ∧
      Event.pulse ≠ .reset ∧ (after (applyEvent params .pulse faulted)).isSome = true := by
  refine ⟨?_, rfl, by decide, by decide⟩
  intro code pc h
  cases h
  exact ⟨rfl, by decide⟩

theorem witness_OnlyPulseRunsInsideAnInstruction : inside.complete = false ∧ inside.fault = none := by
  decide

theorem witness_PulseAfterCompletionIsANoOp :
    (after (step readyLd)).bind State.op = some ⟨.ld, 32, 32, directLatches 0x04C⟩ := by decide

/-- PulseActsThenCounts: a settle pulse, and the pulse that latches the immediate. -/
theorem witness_PulseActsThenCounts :
    inside.op = some ⟨.ldi, 5, 16, emptyLatches⟩ ∧ 5 < 16 ∧ scheduledAction params .ldi 5 = none ∧
      scheduledAction params .ldi 8 = some .fetchImm ∧ scheduledAction params .ldi 15 = some .pc := by
  decide

/-- FlagsPhaseFollowsThePolicy: a variant with an empty policy and one outside it. -/
theorem witness_FlagsPhaseFollowsThePolicy :
    Variant.jc ∉ [Variant.stc, .nor, .add, .addi, .cmp, .cmpi] := by decide

/-- DefaultScheduleIsTheTabled: one variant of each template. -/
theorem witness_DefaultScheduleIsTheTabled :
    Variant.nop.template = .n ∧ Variant.cmpi.template = .i ∧ Variant.jmp.template = .d := by decide

/-- HarnessWriteStoresModuloTheWidth, HarnessWriteTouchesOneRegister. -/
theorem witness_harness_write :
    readyLd.ram.wf = true ∧ readyLd.complete = true ∧ readyLd.fault = none ∧ RegSel.ram 0xFFF ≠ RegSel.ram 0x000 := by decide

/-- JcJumpsOnCarry, JzJumpsOnZero: both values of each flag. -/
theorem witness_jump_flags :
    (machine 0 0 1 1 []).c = 1 ∧ (machine 0 0 0 0 []).c = 0 ∧ (machine 0 0 1 1 []).z = 1 ∧
      (machine 0 0 0 0 []).z = 0 := by decide

/-- StStoresTheAccumulator, OnlyStWritesRam: a RAM in canonical form, up to the last cell. -/
theorem witness_ram_wf :
    (machine 0 7 0 0 [(0, 0x6), (0xFFF, 0xF)]).ram.wf = true ∧ (0xFFF : Addr) ≠ 0x000 ∧
      Instr.st 0xFFF ≠ .st 0x000 := by decide

/-- AccumulatorWritersAndReaders, CarryWritersAndReader, ZeroWritersAndReader: each premise on the variant is met. -/
theorem witness_variants_outside_the_lists :
    Variant.jc ∉ [Variant.ld, .ldi, .inp, .nor, .add, .addi] ∧
      Variant.ld ∉ [Variant.st, .outp, .nor, .add, .addi, .cmp, .cmpi] ∧
      Variant.nor ∉ [Variant.add, .addi, .cmp, .cmpi, .stc] ∧ Variant.stc ≠ .jc ∧
      Variant.stc ∉ [Variant.nor, .add, .addi, .cmp, .cmpi] ∧ Variant.stc ≠ .jz := by decide

/-- PortWritersAndReaders: its premises on the variant and on the state. -/
theorem witness_PortWritersAndReaders :
    (Instr.inp 0xF).variant ≠ .outp ∧ (Instr.outp 0xF).variant ≠ .inp ∧
      Instr.outp 0xF = .outp 0xF ∧ readyLd.complete = true := by decide

/-- A ready machine with `ST 0x003` at 0: the store goes to its own last operand cell. -/
def selfStore : State := machine 0 9 0 0 [(0, 0x6), (3, 0x3)]

theorem witness_StoreIntoItsOwnCellsKeepsItsTarget :
    selfStore.ram.wf = true ∧ selfStore.ready ∧ 3 ≤ 3 ∧ (0x003 : Addr) = selfStore.operandAddr 3 ∧
      HoldsAtPC selfStore 0 (encode (.st 0x003)) :=
  ⟨by decide, ⟨by decide, rfl⟩, by decide, by decide, by decide, by decide, by decide, by decide, trivial⟩

/-- A ready machine with `ST 0x004` at 0 and `A` as given: the store goes to the next opcode cell. -/
def nextStore (a : Nibble) : State := machine 0 a 0 0 [(0, 0x6), (3, 0x4), (4, 0x5)]

theorem witness_StoreIsSeenByTheNextDecode (a : Nibble) :
    (nextStore a).ram.wf = true ∧ (nextStore a).ready ∧ (0x004 : Addr) = (nextStore a).pc + 4 ∧
      HoldsAtPC (nextStore a) 0 (encode (.st 0x004)) :=
  ⟨rfl, ⟨rfl, rfl⟩, rfl, rfl, rfl, rfl, rfl, trivial⟩

/-- StoreIsSeenByTheNextDecode: its last two clauses occur. -/
theorem witness_next_store_values : (nextStore 0xF).a = 0xF ∧ (nextStore 0x0).a = 0x0 := by decide

theorem witness_UnloadedRamRunsNops : State.reset.ready ∧ ∀ x, State.reset.memRead x = 0 :=
  ⟨⟨rfl, rfl⟩, fun _ => rfl⟩

/-- FinishedRunMetNoFault: runs that finish, one that reaches a stop address, one that meets a fault, and start states
that are faulted or inside an instruction. -/
theorem witness_FinishedRunMetNoFault :
    (afterRetirements 0 readyLd).isSome = true ∧ (afterRetirements 1 readyLd).isSome = true ∧
      (firstBoundaryAt 0x002 2 readyLd).isSome = true ∧
      (afterRetirements 1 (machine 0xFFF 0 0 0 [(0, 0xF)])).map
        (fun t => decodeOpcode opcodeMap (t.memRead t.pc)) = some none ∧
      faulted.fault ≠ none ∧ inside.complete = false := by decide

/-- A run from Reset: load LDI 9 at 0 and run it. -/
def loadAndRun : List Event :=
  [.write (.ram 0) 5, .write (.ram 1) 9, .decode] ++ List.replicate 16 .pulse

/-- EventRunFinishesOnlyWithoutFault: a run observed after a retirement, at its first stop address, and one that has
ended in a fault with an event after it. -/
theorem witness_EventRunFinishesOnlyWithoutFault :
    (finalAfter params 1 loadAndRun).isSome = true ∧
      (finalAtStop params 0x002 loadAndRun).isSome = true ∧
      runEvents params [.dispatch 0xF] = .ended (.unknownOpcode 0xF 0x000) ∧
      [Event.dispatch 0xF] <+: [.dispatch 0xF, .pulse] := by
  refine ⟨by decide, by decide, by decide, ⟨[.pulse], rfl⟩⟩

/-! ### Runs (70_reset_and_hazards.md R192) -/

theorem test_event_run : (finalAfter params 1 loadAndRun).map regs = some (0x9, 0, 0, 0x002) := by decide

/-- `PC` is at the stop address after Reset, Dispatch 0xF, but the run has met a fault and has no final state. -/
theorem test_faulted_run_has_no_final_state :
    finalAfter params 0 [.dispatch 0xF] = none ∧ finalAtStop params 0x123
      [.write .pc 0x122, .decode, .write .pc 0x123] = none ∧
      afterRetirements 0 faulted = none ∧ firstBoundaryAt 0x123 3 faulted = none := by decide

/-- Inside an instruction with `PC` at the stop address is no retirement boundary. -/
theorem test_inside_is_not_final :
    finalAfter params 0 [.dispatch 0x5, .pulse] = none ∧ afterRetirements 0 inside = none ∧
      (firstBoundaryAt 0x000 1 inside) = none ∧ pulsesOfRun 1 inside = some 11 := by decide

end Sys2Proof.Tests
end

section
/-! PROOFS. The registers and the flags (spec 10_state.md): what a harness write stores, and who writes and who
reads `C` and `Z`. -/

namespace Sys2Proof.Machine

/-! ### A harness write -/

/-- The register primitive keeps the residue of the integer (R20). -/
theorem setReg_toNat (w : Nat) (v : Int) : ((setReg w v).toNat : Int) = v % 2 ^ w := by
  have hnonneg : 0 ≤ v % (2 ^ w : Int) := Int.emod_nonneg v (by positivity)
  simp [setReg, BitVec.toNat_ofInt, hnonneg]

/-- The register a harness write names then reads as the primitive's value (R20, R33). -/
theorem harnessValue_harnessWrite_same {s : State} (hs : s.ram.wf = true) (r : RegSel) (v : Int) :
    (s.harnessWrite r v).harnessValue r = (setReg r.width v).toNat := by
  cases r with
  | a | c | z | pc => rfl
  | ram i => simp [State.harnessWrite, State.harnessValue, RegSel.width, memRead_memWrite hs]
  | inputPort i => simp [State.harnessWrite, State.harnessValue, RegSel.width, portIn_setInput]
  | outputPort i => simp [State.harnessWrite, State.harnessValue, RegSel.width, outputAt_portOut]

@[simp] theorem harnessWrite_fault (s : State) (r : RegSel) (v : Int) :
    (s.harnessWrite r v).fault = s.fault := by
  cases r <;> rfl

/-- A harness write is taken at every retirement boundary (R185). -/
theorem applyEvent_write_of_complete {s : State} (hc : s.complete = true) (cfg : Config) (r : RegSel)
    (v : Int) : applyEvent cfg (.write r v) s = .next (s.harnessWrite r v) := by
  simp [applyEvent, hc]

/-! ### When a flag law answers 1 -/

theorem addCarry_eq_one_iff (a b : Nibble) : addCarry a b = 1 ↔ 16 ≤ a.toNat + b.toNat := by
  have ha := a.isLt
  have hb := b.isLt
  rw [← BitVec.toNat_inj]
  simp only [addCarry, sum5, BitVec.extractLsb'_toNat, BitVec.toNat_add, BitVec.toNat_setWidth,
    BitVec.ofNat_eq_ofNat, BitVec.toNat_ofNat, Nat.shiftRight_eq_div_pow]
  omega

theorem zeroFlag_eq_one_iff (r : Nibble) : zeroFlag r = 1 ↔ r = 0 := by
  by_cases h : r = 0#4 <;> simp [zeroFlag, h]

theorem cmpBorrow_eq_one_iff (a b : Nibble) : cmpBorrow a b = 1 ↔ a.toNat < b.toNat := by
  by_cases h : a.toNat < b.toNat <;> simp [cmpBorrow, h]

theorem cmpEqual_eq_one_iff (a b : Nibble) : cmpEqual a b = 1 ↔ a = b := by
  by_cases h : a = b <;> simp [cmpEqual, h]

/-! ### Variants -/

/-- The instruction built for a variant belongs to it. -/
@[simp] theorem variant_instr (v : Variant) (imm : Nibble) (addr : Addr) : (v.instr imm addr).variant = v := by
  cases v <;> rfl

/-! ### The carry flag -/

/-- The value of `C` after an instruction, as R26 gives it. -/
def carryAfter (i : Instr) (s : State) : Flag :=
  match i with
  | .add addr => addCarry s.a (s.memRead addr)
  | .addi imm => addCarry s.a imm
  | .cmp addr => cmpBorrow s.a (s.memRead addr)
  | .cmpi imm => cmpBorrow s.a imm
  | .stc imm => stcCarry imm
  | .nop | .jmp _ | .jc _ | .jz _ | .ld _ | .ldi _ | .st _ | .inp _ | .outp _ | .nor _ => s.c

theorem carryAfter_of_not_writer {i : Instr} (hi : i.variant ∉ [.add, .addi, .cmp, .cmpi, .stc])
    (s : State) : carryAfter i s = s.c := by
  cases i with
  | add _ | addi _ | cmp _ | cmpi _ | stc _ => exact absurd (by simp [Instr.variant]) hi
  | _ => rfl

theorem exec_c {i : Instr} {s t : State} (ht : exec i s = .next t) : t.c = carryAfter i s := by
  cases i <;> cases ht <;> rfl

/-- Every instruction but JC does the same whatever `C` holds: a writer of `C` overwrites the old value, any other
instruction carries it along. -/
theorem exec_setC {i : Instr} {s t : State} (hi : i.variant ≠ .jc) (ht : exec i s = .next t) (v : Flag) :
    exec i (s.setC v) =
      .next (if i.variant ∈ [.add, .addi, .cmp, .cmpi, .stc] then t else t.setC v) := by
  cases i with
  | jc _ => exact absurd rfl hi
  | add _ | addi _ | cmp _ | cmpi _ | stc _ => cases ht; rfl
  | nop | jmp _ | jz _ | ld _ | ldi _ | st _ | inp _ | outp _ | nor _ => cases ht; rfl

/-- `C` holds the opposite of `b`, `A` holds 8, and cell 0 holds 15 or 0 as `b` is 1 or 0: with that operand a sum
carries, a comparison borrows and STC sets exactly when `b` is 1. -/
def carryFlipState (b : Flag) : State :=
  ((State.reset.setA 8).setC (~~~b)).memWrite 0 (b.signExtend 4)

theorem carryAfter_carryFlipState : ∀ v ∈ [Variant.add, .addi, .cmp, .cmpi, .stc], ∀ b : Flag,
    carryAfter (v.instr (b.signExtend 4) 0) (carryFlipState b) = b := by
  decide

/-- Each writer of `C` writes both values over the other one (R26). -/
theorem exists_carry_flip {v : Variant} (hv : v ∈ [Variant.add, .addi, .cmp, .cmpi, .stc]) (b : Flag) :
    ∃ (i : Instr) (s t : State), i.variant = v ∧ s.c = ~~~b ∧ exec i s = .next t ∧ t.c = b := by
  obtain ⟨u, l, p, ht, -⟩ := exec_cases (v.instr (b.signExtend 4) 0) (carryFlipState b)
  exact ⟨_, _, _, variant_instr v _ _, rfl, ht, (exec_c ht).trans (carryAfter_carryFlipState v hv b)⟩

/-! ### The zero flag -/

/-- The value of `Z` after an instruction, as R27 gives it. -/
def zeroAfter (i : Instr) (s : State) : Flag :=
  match i with
  | .nor addr => zeroFlag (norResult s.a (s.memRead addr))
  | .add addr => zeroFlag (addResult s.a (s.memRead addr))
  | .addi imm => zeroFlag (addResult s.a imm)
  | .cmp addr => cmpEqual s.a (s.memRead addr)
  | .cmpi imm => cmpEqual s.a imm
  | .nop | .jmp _ | .jc _ | .jz _ | .ld _ | .ldi _ | .st _ | .stc _ | .inp _ | .outp _ => s.z

theorem zeroAfter_of_not_writer {i : Instr} (hi : i.variant ∉ [.nor, .add, .addi, .cmp, .cmpi])
    (s : State) : zeroAfter i s = s.z := by
  cases i with
  | nor _ | add _ | addi _ | cmp _ | cmpi _ => exact absurd (by simp [Instr.variant]) hi
  | _ => rfl

theorem exec_z {i : Instr} {s t : State} (ht : exec i s = .next t) : t.z = zeroAfter i s := by
  cases i <;> cases ht <;> rfl

/-- An instruction that writes `Z` from its result has left that result in `A`. -/
theorem exec_z_eq_zeroFlag_a {i : Instr} {s t : State} (hi : i.variant ∈ [.nor, .add, .addi])
    (ht : exec i s = .next t) : t.z = zeroFlag t.a := by
  cases i with
  | nor _ | add _ | addi _ => cases ht; rfl
  | _ => exact absurd hi (by simp [Instr.variant])

/-- Every instruction but JZ does the same whatever `Z` holds: a writer of `Z` overwrites the old value, any other
instruction carries it along. -/
theorem exec_setZ {i : Instr} {s t : State} (hi : i.variant ≠ .jz) (ht : exec i s = .next t) (v : Flag) :
    exec i (s.setZ v) =
      .next (if i.variant ∈ [.nor, .add, .addi, .cmp, .cmpi] then t else t.setZ v) := by
  cases i with
  | jz _ => exact absurd rfl hi
  | nor _ | add _ | addi _ | cmp _ | cmpi _ => cases ht; rfl
  | nop | jmp _ | jc _ | ld _ | ldi _ | st _ | stc _ | inp _ | outp _ => cases ht; rfl

/-- `Z` holds the opposite of `b`, `A` holds 8, cell 0 holds 8 or 0 and cell 1 holds 15 or 0 as `b` is 1 or 0: a sum
with cell 0, a comparison with it and a NOR with cell 1 set `Z` exactly when `b` is 1. -/
def zeroFlipState (b : Flag) : State :=
  (((State.reset.setA 8).setZ (~~~b)).memWrite 0 (b ++ 0#3)).memWrite 1 (b.signExtend 4)

theorem zeroAfter_zeroFlipState : ∀ v ∈ [Variant.nor, .add, .addi, .cmp, .cmpi], ∀ b : Flag,
    zeroAfter (v.instr (b ++ 0#3) (if v = .nor then 1 else 0)) (zeroFlipState b) = b := by
  decide

/-- Each writer of `Z` writes both values over the other one (R27). -/
theorem exists_zero_flip {v : Variant} (hv : v ∈ [Variant.nor, .add, .addi, .cmp, .cmpi]) (b : Flag) :
    ∃ (i : Instr) (s t : State), i.variant = v ∧ s.z = ~~~b ∧ exec i s = .next t ∧ t.z = b := by
  obtain ⟨u, l, p, ht, -⟩ :=
    exec_cases (v.instr (b ++ 0#3) (if v = .nor then 1 else 0)) (zeroFlipState b)
  exact ⟨_, _, _, variant_instr v _ _, rfl, ht, (exec_z ht).trans (zeroAfter_zeroFlipState v hv b)⟩

/-! ### The statements -/

/-- Settles O29: the write goes through the register primitive, which keeps the residue. -/
theorem harnessWriteStoresModuloTheWidth : Obligations.HarnessWriteStoresModuloTheWidth := by
  intro s r v hs
  refine ⟨?_, harnessWrite_fault s r v, fun cfg hc _ => applyEvent_write_of_complete hc cfg r v⟩
  rw [harnessValue_harnessWrite_same hs, setReg_toNat]

/-- Settles O51: `carryAfter` gives the value, `exec_setC` that the old one is not read, `exists_carry_flip` that
both values are written. -/
theorem carryWritersAndReader : Obligations.CarryWritersAndReader := by
  refine ⟨fun i s => ?_, fun v hv b => exists_carry_flip hv b⟩
  obtain ⟨u, l, p, ht, -⟩ := exec_cases i s
  have hc := exec_c ht
  refine ⟨_, ht, ?add, ?addi, ?cmp, ?cmpi, ?stc, ?kept, fun hi v => exec_setC hi ht v⟩
  case add => rintro addr rfl; rw [hc]; exact addCarry_eq_one_iff _ _
  case addi => rintro imm rfl; rw [hc]; exact addCarry_eq_one_iff _ _
  case cmp => rintro addr rfl; rw [hc]; exact cmpBorrow_eq_one_iff _ _
  case cmpi => rintro imm rfl; rw [hc]; exact cmpBorrow_eq_one_iff _ _
  case stc => rintro imm rfl; exact hc
  case kept => exact fun hi => hc.trans (carryAfter_of_not_writer hi s)

/-- Settles O52: `zeroAfter` gives the value, `exec_setZ` that the old one is not read, `exists_zero_flip` that
both values are written. -/
theorem zeroWritersAndReader : Obligations.ZeroWritersAndReader := by
  refine ⟨fun i s => ?_, fun v hv b => exists_zero_flip hv b⟩
  obtain ⟨u, l, p, ht, -⟩ := exec_cases i s
  have hz := exec_z ht
  refine ⟨_, ht, ?result, ?cmp, ?cmpi, ?kept, fun hi v => exec_setZ hi ht v⟩
  case result => exact fun hi => by rw [exec_z_eq_zeroFlag_a hi ht]; exact zeroFlag_eq_one_iff _
  case cmp => rintro addr rfl; rw [hz]; exact cmpEqual_eq_one_iff _ _
  case cmpi => rintro imm rfl; rw [hz]; exact cmpEqual_eq_one_iff _ _
  case kept => exact fun hi => hz.trans (zeroAfter_of_not_writer hi s)

end Sys2Proof.Machine
end

section
/-! PROOFS. Addresses (spec 20_memory.md): the address arithmetic of operand cells, of the sequential `PC` and of
direct addresses. -/

namespace Sys2Proof.Machine

/-- An address moved on by `k` cells wraps at 4096 (R52). -/
theorem addr_add_ofNat_toNat (a : Addr) (k : Nat) :
    (a + BitVec.ofNat 12 k).toNat = (a.toNat + k) % 4096 := by
  rw [BitVec.toNat_add, BitVec.toNat_ofNat, Nat.add_mod_mod]

theorem operandAddr_toNat (s : State) (j : Nat) :
    (s.operandAddr j).toNat = (s.pc.toNat + j) % 4096 :=
  addr_add_ofNat_toNat s.pc j

theorem nextPC_toNat (s : State) (cfg : Config) (v : Variant) :
    (s.nextPC cfg v).toNat = (s.pc.toNat + lengthOf cfg v) % 4096 :=
  addr_add_ofNat_toNat s.pc (lengthOf cfg v)

/-- Settles O5: operand cells and the sequential `PC` are both offsets from `PC`, and a direct address is a 12-bit
word. -/
theorem addressArithmeticIsModulo4096 : Obligations.AddressArithmeticIsModulo4096 := by
  refine fun s => ⟨fun j _ _ => operandAddr_toNat s j, nextPC_toNat s, fun n1 n2 n3 => ?_⟩
  exact ⟨directAddress_toNat n1 n2 n3, (directAddress n1 n2 n3).isLt⟩

end Sys2Proof.Machine
end

section
/-! PROOFS. The cycle (spec 40_cycle.md): what a taken `Dispatch` leaves alone, what a pulse does to the Operation in
the slot, and which flags the flags phase writes. -/

namespace Sys2Proof.Machine

/-! ### The dispatcher -/

/-- `Dispatch` is taken exactly at a retirement boundary with the latch clear (R92). -/
theorem dispatchEvent_eq_next_iff {cfg : Config} {code : Nibble} {s t : State} :
    dispatchEvent cfg code s = .next t ↔ s.ready ∧ t = s.dispatchCode cfg code := by
  unfold dispatchEvent State.ready
  cases s.complete with
  | false => simp
  | true =>
    cases s.fault with
    | none => simp [eq_comm]
    | some f => simp

theorem dispatchCode_sameArchitectural (cfg : Config) (code : Nibble) (s : State) :
    SameArchitectural s (s.dispatchCode cfg code) := by
  obtain ⟨v, -, h⟩ | ⟨-, h⟩ := dispatchCode_cases cfg code s <;> rw [h] <;>
    exact ⟨rfl, rfl, rfl, rfl, rfl, rfl, rfl⟩

/-- Starting an assigned code's Operation does not touch the latch (R94). -/
theorem dispatchCode_fault_of_known {cfg : Config} {code : Nibble}
    (hcode : decodeOpcode cfg.opcodeMap code ≠ none) (s : State) :
    (s.dispatchCode cfg code).fault = s.fault := by
  obtain ⟨v, -, h⟩ | ⟨hnone, -⟩ := dispatchCode_cases cfg code s
  · rw [h, startOperation_fault]
  · exact absurd hnone hcode

/-- Settles O21: both events run `dispatchEvent`, and where it is taken it does what `dispatchCode` does. -/
theorem dispatchChangesNoArchitecturalState : Obligations.DispatchChangesNoArchitecturalState := by
  intro cfg s t code h
  have hd : dispatchEvent cfg code s = .next t := by
    obtain hdispatch | ⟨hdecode, rfl⟩ := h
    · exact hdispatch
    · exact hdecode
  obtain ⟨-, rfl⟩ := dispatchEvent_eq_next_iff.mp hd
  exact ⟨dispatchCode_sameArchitectural cfg code s, fun hcode => dispatchCode_fault_of_known hcode s⟩

/-! ### A pulse -/

/-- Settles O25: a counter at the total makes `complete` true, and the pulse of a complete Operation does nothing. -/
theorem pulseAfterCompletionIsANoOp : Obligations.PulseAfterCompletionIsANoOp := by
  intro cfg s o ho hk
  have hc : s.complete = true := by simp [complete_of_op_some s ho, hk]
  have hp : pulse cfg s = s := pulse_of_complete hc
  exact ⟨hp, by rw [hp, hc]⟩

/-- A pulse with a scheduled action performs it and counts (R97). -/
theorem advanceOperation_of_scheduled {cfg : Config} {o : Operation} {x : PulseAction}
    (hx : scheduledAction cfg o.variant o.counter = some x) (s : State) :
    advanceOperation cfg o s =
      { (performAction cfg o.variant x o.latches s).1 with
        op := some { o with
          counter := o.counter + 1,
          latches := (performAction cfg o.variant x o.latches s).2 } } := by
  simp only [advanceOperation, hx]

/-- A settle pulse only counts (R97). -/
theorem advanceOperation_of_settle {cfg : Config} {o : Operation}
    (hx : scheduledAction cfg o.variant o.counter = none) (s : State) :
    advanceOperation cfg o s = { s with op := some { o with counter := o.counter + 1 } } := by
  simp only [advanceOperation, hx]

/-- Settles O26: the pulse of an incomplete Operation is its advance, which follows the schedule. -/
theorem pulseActsThenCounts : Obligations.PulseActsThenCounts := by
  intro cfg s o ho hk
  rw [pulse_of_live ho hk]
  exact ⟨fun x hx => advanceOperation_of_scheduled hx s, fun hx => advanceOperation_of_settle hx s⟩

/-! ### The flags phase -/

/-- The variants whose policy names `C` (R108). -/
theorem flagsPhase_c (v : Variant) (l : Latches) (s : State) :
    (flagsPhase v l s).c = if v ∈ [.stc, .add, .addi, .cmp, .cmpi] then l.cN else s.c := by
  cases v with
  | stc | add | addi | cmp | cmpi => rfl
  | nop | jmp | jc | jz | ld | ldi | st | inp | outp | nor => rfl

/-- The variants whose policy names `Z` (R108). -/
theorem flagsPhase_z (v : Variant) (l : Latches) (s : State) :
    (flagsPhase v l s).z = if v ∈ [.nor, .add, .addi, .cmp, .cmpi] then l.zN else s.z := by
  cases v with
  | nor | add | addi | cmp | cmpi => rfl
  | nop | jmp | jc | jz | ld | ldi | st | stc | inp | outp => rfl

/-- A variant whose policy is empty has no flags phase (R108). -/
theorem flagsPhase_of_no_policy {v : Variant} (hv : v ∉ [.stc, .nor, .add, .addi, .cmp, .cmpi])
    (l : Latches) (s : State) : flagsPhase v l s = s := by
  cases v with
  | stc | nor | add | addi | cmp | cmpi => exact absurd (by simp) hv
  | nop | jmp | jc | jz | ld | ldi | st | inp | outp => rfl

/-- Settles O27: the policy of each flag, and the frame of the phase. -/
theorem flagsPhaseFollowsThePolicy : Obligations.FlagsPhaseFollowsThePolicy := fun v l s =>
  ⟨flagsPhase_c v l s, flagsPhase_z v l s, flagsPhase_frame v l s,
    fun hv => flagsPhase_of_no_policy hv l s⟩

end Sys2Proof.Machine
end

section
/-! PROOFS. The arithmetic laws (spec 43_alu.md): the values of a sum and of a NOR, and what the instructions that
use them do with the flags. -/

namespace Sys2Proof.Machine

/-! ### Addition -/

/-- Two nibbles add up without overflow in 5 bits (R145). -/
theorem sum5_toNat (a b : Nibble) : (sum5 a b).toNat = a.toNat + b.toNat := by
  have ha := a.isLt
  have hb := b.isLt
  simp only [sum5, BitVec.toNat_add, BitVec.toNat_setWidth]
  omega

theorem sum5_toNat_le (a b : Nibble) : (sum5 a b).toNat ≤ 30 := by
  have ha := a.isLt
  have hb := b.isLt
  rw [sum5_toNat]
  omega

theorem addResult_toNat (a b : Nibble) : (addResult a b).toNat = (a.toNat + b.toNat) % 16 := by
  rw [addResult, BitVec.extractLsb'_toNat, sum5_toNat, Nat.shiftRight_zero]

theorem addResult_eq_zero_iff (a b : Nibble) : addResult a b = 0 ↔ (a.toNat + b.toNat) % 16 = 0 := by
  rw [← addResult_toNat, ← BitVec.toNat_inj]
  rfl

/-- A writer of `C` does the same whatever `C` held before: the old value is neither read nor kept. -/
theorem exec_setC_of_writer {i : Instr} (hi : i.variant ∈ [.add, .addi, .cmp, .cmpi, .stc]) (s : State)
    (v : Flag) : exec i (s.setC v) = exec i s := by
  obtain ⟨u, l, p, ht, -⟩ := exec_cases i s
  have hjc : i.variant ≠ .jc := by rintro h; simp [h] at hi
  rw [exec_setC hjc ht, if_pos hi, ht]

/-- Settles O47: every clause is read off the exact 5-bit sum, and ADD and ADDI are writers of `C`. -/
theorem additionIsUnsignedWithCarryOut : Obligations.AdditionIsUnsignedWithCarryOut := by
  refine ⟨fun a b => ?laws, fun s v addr imm => ?noCarryIn⟩
  case laws =>
    have hzero := (zeroFlag_eq_one_iff (addResult a b)).trans (addResult_eq_zero_iff a b)
    exact ⟨sum5_toNat a b, sum5_toNat_le a b, addResult_toNat a b, addCarry_eq_one_iff a b, hzero⟩
  case noCarryIn =>
    exact ⟨exec_setC_of_writer (by simp [Instr.variant]) s v,
      exec_setC_of_writer (by simp [Instr.variant]) s v⟩

/-! ### NOR -/

theorem norResult_toNat (a b : Nibble) : (norResult a b).toNat = 15 - (a ||| b).toNat := by
  rw [norResult, BitVec.toNat_not]

theorem norResult_getLsbD (a b : Nibble) {k : Nat} (hk : k < 4) :
    (norResult a b).getLsbD k = !(a.getLsbD k || b.getLsbD k) := by
  simp [norResult, hk]

theorem exec_nor_a {addr : Addr} {s t : State} (ht : exec (.nor addr) s = .next t) :
    t.a = norResult s.a (s.memRead addr) := by
  cases ht; rfl

/-- Settles O49: the value of the result as a number and bit by bit, and NOR as a writer of `Z` but not of `C`. -/
theorem norIsBitwiseComplementOfOr : Obligations.NorIsBitwiseComplementOfOr := by
  refine ⟨fun a b => ?laws, fun s addr => ?instruction⟩
  case laws =>
    exact ⟨rfl, norResult_toNat a b, fun k hk => norResult_getLsbD a b hk, zeroFlag_eq_one_iff _⟩
  case instruction =>
    obtain ⟨u, l, p, ht, -⟩ := exec_cases (.nor addr) s
    have hz := exec_z_eq_zeroFlag_a (by simp [Instr.variant]) ht
    have hc := (exec_c ht).trans (carryAfter_of_not_writer (by simp [Instr.variant]) s)
    exact ⟨_, ht, exec_nor_a ht, hz, hc⟩

end Sys2Proof.Machine
end

section
/-! PROOFS. Exceptions (spec 60_exceptions.md): neither a meaning nor a pulse touches the fault latch. -/

namespace Sys2Proof.Machine

/-- Every instruction has a next state, and its latch is as it was (R164). -/
theorem exists_exec_next_fault (i : Instr) (s : State) : ∃ t, exec i s = .next t ∧ t.fault = s.fault := by
  obtain ⟨u, l, p, ht, hfault, -⟩ := exec_cases i s
  exact ⟨_, ht, (retire_fault u params i.variant l p).trans hfault⟩

@[simp] theorem pulse_fault (cfg : Config) (s : State) : (pulse cfg s).fault = s.fault := by
  obtain ⟨-, hidle⟩ | ⟨o, -, -, hadvance⟩ := pulse_cases cfg s
  · rw [hidle]
  · rw [hadvance, (advanceOperation_frame cfg o s).1]

@[simp] theorem runPulses_fault (cfg : Config) (n : Nat) (s : State) :
    (runPulses cfg n s).fault = s.fault :=
  runPulses_keeps (fun t => t.fault = s.fault) (fun t ht => (pulse_fault cfg t).trans ht) n rfl

/-- Settles O55: a meaning only retires a state with the old latch, and a run of pulses keeps what each pulse
keeps. -/
theorem noInstructionRaisesOnceDispatched : Obligations.NoInstructionRaisesOnceDispatched :=
  ⟨exists_exec_next_fault, fun cfg s n => runPulses_fault cfg n s⟩

end Sys2Proof.Machine
end

section
/-! PROOFS. The encoding (spec 30_encoding.md): the decoder of operand cells and the operand cells of an instruction
are inverse to each other, and an injective opcode map leaves one code over. -/

namespace Sys2Proof

/-! ### Operand cells -/

theorem operandCells_instr_n {v : Variant} (hv : v.template = .n) (imm : Nibble) (addr : Addr) :
    (v.instr imm addr).operandCells = [] := by
  cases v <;> cases hv
  rfl

theorem operandCells_instr_i {v : Variant} (hv : v.template = .i) (imm : Nibble) (addr : Addr) :
    (v.instr imm addr).operandCells = [imm] := by
  cases v <;> cases hv <;> rfl

theorem operandCells_instr_d {v : Variant} (hv : v.template = .d) (imm : Nibble) (addr : Addr) :
    (v.instr imm addr).operandCells = [addrN1 addr, addrN2 addr, addrN3 addr] := by
  cases v <;> cases hv <;> rfl

/-- Whatever `decodeOperands` reads, it reads from that instruction's own operand cells (R71-R73). -/
theorem decodeOperands_sound {v : Variant} {cells rest : List Nibble} {i : Instr}
    (h : decodeOperands v cells = .ok (i, rest)) : i.variant = v ∧ i.operandCells ++ rest = cells := by
  unfold decodeOperands at h
  split at h
  next hv => cases h; simp [Machine.variant_instr, operandCells_instr_n hv]
  next hv => cases h; simp [Machine.variant_instr, operandCells_instr_i hv]
  next hv => cases h; simp [Machine.variant_instr, operandCells_instr_d hv]
  next => cases h

/-- An instruction is read back from its operand cells, whatever cells follow (R71-R76). -/
theorem decodeOperands_operandCells (i : Instr) (rest : List Nibble) :
    decodeOperands i.variant (i.operandCells ++ rest) = .ok (i, rest) := by
  cases i with
  | nop | ldi _ | stc _ | inp _ | outp _ | addi _ | cmpi _ => rfl
  | jmp _ | jc _ | jz _ | ld _ | st _ | nor _ | add _ | cmp _ =>
    simp [decodeOperands, Instr.variant, Variant.template, Instr.operandCells, Variant.instr]

/-! ### The opcode cell -/

/-- Under an injective map the decoder and the map agree on every code (R77, R78). -/
theorem decodeOpcode_eq_some_iff {map : Variant → Nibble} (hmap : injectiveMap map = true)
    {code : Nibble} {v : Variant} : decodeOpcode map code = some v ↔ map v = code := by
  refine ⟨decodeOpcode_sound, fun hv => ?_⟩
  cases hd : decodeOpcode map code with
  | none => exact absurd hv (decodeOpcode_eq_none.mp hd v)
  | some u =>
    have hu : map u = map v := (decodeOpcode_sound hd).trans hv.symm
    rw [injective_of_injectiveMap hmap hu]

theorem decodeWith_cons_of_known {map : Variant → Nibble} {code : Nibble} {v : Variant}
    (hcode : decodeOpcode map code = some v) (cells : List Nibble) :
    decodeWith map (code :: cells) = decodeOperands v cells := by
  simp only [decodeWith, hcode]

theorem decodeWith_cons_of_unassigned {map : Variant → Nibble} {code : Nibble}
    (hcode : decodeOpcode map code = none) (cells : List Nibble) :
    decodeWith map (code :: cells) = .error (.unknownOpcode code) := by
  simp only [decodeWith, hcode]

/-- Settles O1: the map's injectivity gives the variant back, and the variant's operand cells the operands. -/
theorem encodeThenDecodeUnderEveryOpcodeMap : Obligations.EncodeThenDecodeUnderEveryOpcodeMap := by
  intro map hmap i rest
  have hcode : decodeOpcode map (map i.variant) = some i.variant :=
    (decodeOpcode_eq_some_iff hmap).mpr rfl
  calc decodeWith map (encodeWith map i ++ rest)
      = decodeOperands i.variant (i.operandCells ++ rest) := decodeWith_cons_of_known hcode _
    _ = .ok (i, rest) := decodeOperands_operandCells i rest

/-- Settles O2: a list that is read starts with an assigned code, and both its parts are read soundly. -/
theorem decodeThenEncodeGivesTheCells : Obligations.DecodeThenEncodeGivesTheCells := by
  intro map cells rest i h
  cases cells with
  | nil => cases h
  | cons code cells =>
    cases hcode : decodeOpcode map code with
    | none => rw [decodeWith_cons_of_unassigned hcode] at h; cases h
    | some v =>
      rw [decodeWith_cons_of_known hcode] at h
      obtain ⟨hvariant, hcells⟩ := decodeOperands_sound h
      rw [encodeWith, hvariant, decodeOpcode_sound hcode, List.cons_append, hcells]

theorem opcodeMap_injective : injectiveMap opcodeMap = true := by decide

theorem decode_encode_append (i : Instr) (rest : List Nibble) :
    decode (encode i ++ rest) = .ok (i, rest) :=
  encodeThenDecodeUnderEveryOpcodeMap opcodeMap opcodeMap_injective i rest

/-- Settles O4: the four listed words are encodings, and 0xF is the code the default map leaves over. -/
theorem sampleWordsDecode : Obligations.SampleWordsDecode := by
  refine ⟨decode_encode_append (.jmp 0x04C) [], decode_encode_append (.st 0xFED) [0x0],
    decode_encode_append (.cmpi 0x7) [0x2], decode_encode_append .nop [0x5], ?_⟩
  exact decodeWith_cons_of_unassigned (by decide) _

/-! ### The unassigned code -/

/-- The codes an opcode map assigns. -/
def assignedCodes (map : Variant → Nibble) : Finset Nibble := (Variant.all.map map).toFinset

theorem not_mem_assignedCodes {map : Variant → Nibble} {code : Nibble} :
    code ∉ assignedCodes map ↔ decodeOpcode map code = none := by
  simp [assignedCodes, decodeOpcode_eq_none, Variant.mem_all]

theorem card_assignedCodes {map : Variant → Nibble} (hmap : injectiveMap map = true) :
    (assignedCodes map).card = 15 := by
  have hnodup : (Variant.all.map map).Nodup := by simpa [injectiveMap] using hmap
  rw [assignedCodes, List.toFinset_card_of_nodup hnodup, List.length_map]
  rfl

/-- Settles O3: fifteen of the sixteen codes are assigned, and the decoder agrees with the map. -/
theorem everyInjectiveMapLeavesOneCode : Obligations.EveryInjectiveMapLeavesOneCode := by
  intro map hmap
  refine ⟨?_, fun code v => decodeOpcode_eq_some_iff hmap⟩
  have hcard : (assignedCodes map)ᶜ.card = 1 := by
    rw [Finset.card_compl, card_assignedCodes hmap]
    rfl
  obtain ⟨free, hfree⟩ := Finset.card_eq_one.mp hcard
  have hunassigned (code : Nibble) : decodeOpcode map code = none ↔ code = free := by
    rw [← not_mem_assignedCodes, ← Finset.mem_compl, hfree, Finset.mem_singleton]
  exact ⟨free, (hunassigned free).mpr rfl, fun code => (hunassigned code).mp⟩

end Sys2Proof
end

section
/-! PROOFS. The meaning of each instruction (specs 41_control.md, 42_transfer.md, 43_alu.md; 10_state.md R23, R31):
the value each register takes, who writes and who reads it. `carryAfter` and `zeroAfter` above are the flags' part. -/

namespace Sys2Proof.Machine

/-! ### Every field after an instruction -/

/-- The value of `A` after an instruction (R23). -/
def accAfter (i : Instr) (s : State) : Nibble :=
  match i with
  | .ld addr => s.memRead addr
  | .ldi imm => imm
  | .inp port => s.portIn port
  | .nor addr => norResult s.a (s.memRead addr)
  | .add addr => addResult s.a (s.memRead addr)
  | .addi imm => addResult s.a imm
  | .nop | .jmp _ | .jc _ | .jz _ | .st _ | .stc _ | .outp _ | .cmp _ | .cmpi _ => s.a

/-- The value of `PC` after an instruction (R25, R109). -/
def pcAfter (i : Instr) (s : State) : Addr :=
  match i with
  | .jmp addr => addr
  | .jc addr => if s.c = 1 then addr else s.pc + 4
  | .jz addr => if s.z = 1 then addr else s.pc + 4
  | .nop => s.pc + 1
  | .ld _ | .st _ | .nor _ | .add _ | .cmp _ => s.pc + 4
  | .ldi _ | .stc _ | .inp _ | .outp _ | .addi _ | .cmpi _ => s.pc + 2

/-- The latches an instruction's Operation ends with, where it leaves the flags `c` and `z` (R35, R108). -/
def latchesAfter (i : Instr) (c z : Flag) : Latches :=
  match i with
  | .nop => emptyLatches
  | .jmp addr | .jc addr | .jz addr | .ld addr | .st addr => directLatches addr
  | .ldi imm | .inp imm | .outp imm => immLatches imm
  | .stc imm => (immLatches imm).withC c
  | .nor addr => (directLatches addr).withZ z
  | .add addr | .cmp addr => (directLatches addr).withCZ c z
  | .addi imm | .cmpi imm => (immLatches imm).withCZ c z

section
variable {i : Instr} {s t : State}

theorem exec_a (ht : exec i s = .next t) : t.a = accAfter i s := by
  cases i <;> cases ht <;> rfl

theorem exec_pc (ht : exec i s = .next t) : t.pc = pcAfter i s := by
  cases i <;> cases ht <;> rfl

theorem exec_retiredAs (ht : exec i s = .next t) : RetiredAs i.variant (latchesAfter i t.c t.z) t := by
  cases i <;> cases ht <;> rfl

theorem exec_inputPorts (ht : exec i s = .next t) : t.inputPorts = s.inputPorts := by
  cases i <;> cases ht <;> rfl

theorem exec_outputPorts (ht : exec i s = .next t) (hi : i.variant ≠ .outp) :
    t.outputPorts = s.outputPorts := by
  cases i with
  | outp _ => exact absurd rfl hi
  | _ => cases ht; rfl

theorem exec_ram (ht : exec i s = .next t) (hi : i.variant ≠ .st) : t.ram = s.ram := by
  cases i with
  | st _ => exact absurd rfl hi
  | _ => cases ht; rfl

theorem exec_sameRam (ht : exec i s = .next t) (hi : i.variant ≠ .st := by simp [Instr.variant]) :
    SameRam s t := fun x => by
  rw [State.memRead, State.memRead, exec_ram ht hi]

theorem exec_samePorts (ht : exec i s = .next t) (hi : i.variant ≠ .outp := by simp [Instr.variant]) :
    SamePorts s t :=
  ⟨exec_inputPorts ht, exec_outputPorts ht hi⟩

/-- An instruction outside both writers' lists leaves both flags (R26, R27). -/
theorem exec_sameFlags (ht : exec i s = .next t)
    (hi : i.variant ∉ [.stc, .nor, .add, .addi, .cmp, .cmpi] := by simp [Instr.variant]) :
    SameFlags s t := by
  simp only [List.mem_cons, List.not_mem_nil, or_false, not_or] at hi
  obtain ⟨hstc, hnor, hadd, haddi, hcmp, hcmpi⟩ := hi
  have hc : t.c = s.c := (exec_c ht).trans (carryAfter_of_not_writer (by simp [*]) s)
  have hz : t.z = s.z := (exec_z ht).trans (zeroAfter_of_not_writer (by simp [*]) s)
  exact ⟨hc, hz⟩

theorem exec_st_memRead {addr : Addr} (hs : s.ram.wf = true) (ht : exec (.st addr) s = .next t)
    (x : Addr) : t.memRead x = if x = addr then s.a else s.memRead x := by
  cases ht
  exact memRead_memWrite hs addr x s.a

theorem exec_outp_outputAt {port : Nibble} (ht : exec (.outp port) s = .next t) (x : Nibble) :
    t.outputAt x = if x = port then s.a else s.outputAt x := by
  cases ht
  exact outputAt_portOut s port x s.a

end

/-- Every instruction but ST and OUT has a next state with RAM, the ports and the latch as they were, and its complete
Operation in the slot. -/
theorem exists_exec_frame (i : Instr) (s : State)
    (hi : i.variant ∉ [.st, .outp] := by simp [Instr.variant]) :
    ∃ t, exec i s = .next t ∧ SameRam s t ∧ SamePorts s t ∧ t.fault = s.fault ∧
      RetiredAs i.variant (latchesAfter i t.c t.z) t := by
  simp only [List.mem_cons, List.not_mem_nil, or_false, not_or] at hi
  obtain ⟨hst, houtp⟩ := hi
  obtain ⟨t, ht, hfault⟩ := exists_exec_next_fault i s
  exact ⟨t, ht, exec_sameRam ht hst, exec_samePorts ht houtp, hfault, exec_retiredAs ht⟩

/-! ### Control -/

/-- Settles O32: the field lemmas at NOP. -/
theorem nopOnlyAdvances : Obligations.NopOnlyAdvances := by
  intro s
  obtain ⟨t, ht, hframe⟩ := exists_exec_frame .nop s
  exact ⟨t, ht, exec_pc ht, exec_a ht, exec_sameFlags ht, hframe⟩

/-- Settles O33: the field lemmas at JMP. -/
theorem jmpTakesTheAddress : Obligations.JmpTakesTheAddress := by
  intro addr s
  obtain ⟨t, ht, hframe⟩ := exists_exec_frame (.jmp addr) s
  exact ⟨t, ht, exec_pc ht, exec_a ht, exec_sameFlags ht, hframe⟩

/-- Settles O34: `pcAfter` decides on `C`. -/
theorem jcJumpsOnCarry : Obligations.JcJumpsOnCarry := by
  intro addr s
  obtain ⟨t, ht, hframe⟩ := exists_exec_frame (.jc addr) s
  have hpc : t.pc = if s.c = 1 then addr else s.pc + 4 := exec_pc ht
  have htaken (hc : s.c = 1) : t.pc = addr := by rw [hpc, if_pos hc]
  have hnext (hc : s.c = 0) : t.pc = s.pc + 4 := by rw [hpc, if_neg (by simp [hc])]
  exact ⟨t, ht, htaken, hnext, exec_a ht, exec_sameFlags ht, hframe⟩

/-- Settles O35: `pcAfter` decides on `Z`. -/
theorem jzJumpsOnZero : Obligations.JzJumpsOnZero := by
  intro addr s
  obtain ⟨t, ht, hframe⟩ := exists_exec_frame (.jz addr) s
  have hpc : t.pc = if s.z = 1 then addr else s.pc + 4 := exec_pc ht
  have htaken (hz : s.z = 1) : t.pc = addr := by rw [hpc, if_pos hz]
  have hnext (hz : s.z = 0) : t.pc = s.pc + 4 := by rw [hpc, if_neg (by simp [hz])]
  exact ⟨t, ht, htaken, hnext, exec_a ht, exec_sameFlags ht, hframe⟩

/-! ### Transfer -/

/-- Settles O36: the field lemmas at LD. -/
theorem ldLoadsTheCell : Obligations.LdLoadsTheCell := by
  intro addr s
  obtain ⟨t, ht, hframe⟩ := exists_exec_frame (.ld addr) s
  exact ⟨t, ht, exec_a ht, exec_pc ht, exec_sameFlags ht, hframe⟩

/-- Settles O37: the field lemmas at LDI. -/
theorem ldiLoadsTheImmediate : Obligations.LdiLoadsTheImmediate := by
  intro imm s
  obtain ⟨t, ht, hframe⟩ := exists_exec_frame (.ldi imm) s
  exact ⟨t, ht, exec_a ht, exec_pc ht, exec_sameFlags ht, hframe⟩

/-- Settles O38: `exec_st_memRead` says what every cell reads as. -/
theorem stStoresTheAccumulator : Obligations.StStoresTheAccumulator := by
  intro addr s hs
  obtain ⟨t, ht, hfault⟩ := exists_exec_next_fault (.st addr) s
  have hcell : t.memRead addr = s.a := by rw [exec_st_memRead hs ht, if_pos rfl]
  have hother (x : Addr) (hx : x ≠ addr) : t.memRead x = s.memRead x := by
    rw [exec_st_memRead hs ht, if_neg hx]
  exact ⟨t, ht, hcell, hother, exec_pc ht, exec_a ht, exec_sameFlags ht, exec_samePorts ht, hfault,
    exec_retiredAs ht⟩

theorem stcCarry_toNat (imm : Nibble) : (stcCarry imm).toNat = imm.toNat % 2 := by
  rw [stcCarry, BitVec.extractLsb'_toNat, Nat.shiftRight_zero]

/-- Settles O39: `carryAfter` is bit 0 of the immediate. -/
theorem stcSetsCarryFromBitZero : Obligations.StcSetsCarryFromBitZero := by
  intro imm s
  obtain ⟨t, ht, hframe⟩ := exists_exec_frame (.stc imm) s
  have hc : t.c.toNat = imm.toNat % 2 := by rw [exec_c ht]; exact stcCarry_toNat imm
  exact ⟨t, ht, hc, exec_z ht, exec_pc ht, exec_a ht, hframe⟩

/-- Settles O40: the field lemmas at IN. -/
theorem inReadsThePort : Obligations.InReadsThePort := by
  intro port s
  obtain ⟨t, ht, hframe⟩ := exists_exec_frame (.inp port) s
  exact ⟨t, ht, exec_a ht, exec_pc ht, exec_sameFlags ht, hframe⟩

/-- Settles O41: `exec_outp_outputAt` says what every output port reads as. -/
theorem outWritesThePort : Obligations.OutWritesThePort := by
  intro port s
  obtain ⟨t, ht, hfault⟩ := exists_exec_next_fault (.outp port) s
  have hport : t.outputAt port = s.a := by rw [exec_outp_outputAt ht, if_pos rfl]
  have hother (x : Nibble) (hx : x ≠ port) : t.outputAt x = s.outputAt x := by
    rw [exec_outp_outputAt ht, if_neg hx]
  exact ⟨t, ht, hport, hother, exec_pc ht, exec_a ht, exec_inputPorts ht, exec_sameFlags ht,
    exec_sameRam ht, hfault, exec_retiredAs ht⟩

/-! ### Arithmetic and logic -/

/-- Settles O42: `Z` is the zero test of the result that NOR leaves in `A`. -/
theorem norWritesAAndZ : Obligations.NorWritesAAndZ := by
  intro addr s
  obtain ⟨t, ht, hframe⟩ := exists_exec_frame (.nor addr) s
  have ha : t.a.toNat = 15 - (s.a ||| s.memRead addr).toNat := by
    rw [exec_nor_a ht, norResult_toNat]
  have hz : t.z = 1 ↔ t.a = 0 := by
    rw [exec_z_eq_zeroFlag_a (by simp [Instr.variant]) ht, zeroFlag_eq_one_iff]
  exact ⟨t, ht, ha, hz, exec_c ht, exec_pc ht, hframe⟩

/-- What `A`, `C` and `Z` say after a sum with the operand `m` (R145). -/
theorem sum_written {s t : State} (m : Nibble) (ha : t.a = addResult s.a m)
    (hc : t.c = addCarry s.a m) (hz : t.z = zeroFlag t.a) :
    t.a.toNat = (s.a.toNat + m.toNat) % 16 ∧ (t.c = 1 ↔ 16 ≤ s.a.toNat + m.toNat) ∧
      (t.z = 1 ↔ t.a = 0) := by
  rw [hz, hc, zeroFlag_eq_one_iff, addCarry_eq_one_iff, ha, addResult_toNat]
  exact ⟨rfl, Iff.rfl, Iff.rfl⟩

/-- Settles O43: the sum is with the addressed cell. -/
theorem addWritesSumCarryZero : Obligations.AddWritesSumCarryZero := by
  intro addr s
  obtain ⟨t, ht, hframe⟩ := exists_exec_frame (.add addr) s
  obtain ⟨hsum, hcarry, hzero⟩ := sum_written (s.memRead addr) (exec_a ht) (exec_c ht)
    (exec_z_eq_zeroFlag_a (by simp [Instr.variant]) ht)
  exact ⟨t, ht, hsum, hcarry, hzero, exec_pc ht, hframe⟩

/-- Settles O44: the sum is with the immediate. -/
theorem addiWritesSumCarryZero : Obligations.AddiWritesSumCarryZero := by
  intro imm s
  obtain ⟨t, ht, hframe⟩ := exists_exec_frame (.addi imm) s
  obtain ⟨hsum, hcarry, hzero⟩ := sum_written imm (exec_a ht) (exec_c ht)
    (exec_z_eq_zeroFlag_a (by simp [Instr.variant]) ht)
  exact ⟨t, ht, hsum, hcarry, hzero, exec_pc ht, hframe⟩

/-- What `C` and `Z` say after a comparison with the operand `m` (R146). -/
theorem comparison_written {s t : State} (m : Nibble) (hc : t.c = cmpBorrow s.a m)
    (hz : t.z = cmpEqual s.a m) : (t.c = 1 ↔ s.a.toNat < m.toNat) ∧ (t.z = 1 ↔ s.a = m) := by
  rw [hc, hz]
  exact ⟨cmpBorrow_eq_one_iff s.a m, cmpEqual_eq_one_iff s.a m⟩

/-- Settles O45: the comparison is with the addressed cell. -/
theorem cmpWritesBorrowAndEqual : Obligations.CmpWritesBorrowAndEqual := by
  intro addr s
  obtain ⟨t, ht, hframe⟩ := exists_exec_frame (.cmp addr) s
  obtain ⟨hborrow, hequal⟩ := comparison_written (s.memRead addr) (exec_c ht) (exec_z ht)
  exact ⟨t, ht, hborrow, hequal, exec_a ht, exec_pc ht, hframe⟩

/-- Settles O46: the comparison is with the immediate. -/
theorem cmpiWritesBorrowAndEqual : Obligations.CmpiWritesBorrowAndEqual := by
  intro imm s
  obtain ⟨t, ht, hframe⟩ := exists_exec_frame (.cmpi imm) s
  obtain ⟨hborrow, hequal⟩ := comparison_written imm (exec_c ht) (exec_z ht)
  exact ⟨t, ht, hborrow, hequal, exec_a ht, exec_pc ht, hframe⟩

/-- The 5-bit difference of two nibbles, as a number (R146). -/
theorem difference5_toNat (a b : Nibble) :
    (a.setWidth 5 - b.setWidth 5).toNat = (32 - b.toNat + a.toNat) % 32 := by
  have ha := a.isLt
  have hb := b.isLt
  simp only [BitVec.toNat_sub, BitVec.toNat_setWidth]
  omega

/-- Settles O48: bit 4 of the 5-bit difference is the borrow, and its low four bits are 0 exactly for equal nibbles. -/
theorem comparisonIsA5BitSubtraction : Obligations.ComparisonIsA5BitSubtraction := by
  intro a b
  have ha := a.isLt
  have hb := b.isLt
  refine ⟨cmpBorrow_eq_one_iff a b, cmpEqual_eq_one_iff a b, ?borrow, ?equal⟩
  case borrow =>
    rw [← BitVec.toNat_inj, BitVec.extractLsb'_toNat, difference5_toNat, Nat.shiftRight_eq_div_pow]
    by_cases h : a.toNat < b.toNat <;> simp [cmpBorrow, h] <;> omega
  case equal =>
    rw [cmpEqual_eq_one_iff]
    simp only [← BitVec.toNat_inj, BitVec.extractLsb'_toNat, difference5_toNat, Nat.shiftRight_zero,
      BitVec.toNat_ofNat]
    omega

/-! ### Who writes and who reads `A`, the ports and RAM -/

theorem accAfter_of_not_writer {i : Instr} (hi : i.variant ∉ [.ld, .ldi, .inp, .nor, .add, .addi])
    (s : State) : accAfter i s = s.a := by
  cases i with
  | ld _ | ldi _ | inp _ | nor _ | add _ | addi _ => exact absurd (by simp [Instr.variant]) hi
  | _ => rfl

/-- An instruction that does not read `A` does the same whatever `A` holds: a load overwrites the old value, any other
carries it along (R23). -/
theorem exec_setA {i : Instr} {s t : State}
    (hi : i.variant ∉ [.st, .outp, .nor, .add, .addi, .cmp, .cmpi]) (ht : exec i s = .next t)
    (v : Nibble) :
    exec i (s.setA v) = .next (if i.variant ∈ [.ld, .ldi, .inp] then t else t.setA v) := by
  cases i with
  | st _ | outp _ | nor _ | add _ | addi _ | cmp _ | cmpi _ => exact absurd (by simp [Instr.variant]) hi
  | _ => cases ht; rfl

/-- Settles O50: `accAfter` names the writers, and `exec_setA` clears everyone else of reading. -/
theorem accumulatorWritersAndReaders : Obligations.AccumulatorWritersAndReaders := by
  intro i s
  obtain ⟨t, ht, -⟩ := exists_exec_next_fault i s
  exact ⟨t, ht, fun hi => (exec_a ht).trans (accAfter_of_not_writer hi s),
    fun hi v => exec_setA hi ht v⟩

/-- Only IN reads the input ports (R31). -/
theorem exec_with_inputPorts {i : Instr} {s t : State} (hi : i.variant ≠ .inp)
    (ht : exec i s = .next t) (p : Vector Nibble 16) :
    exec i { s with inputPorts := p } = .next { t with inputPorts := p } := by
  cases i with
  | inp _ => exact absurd rfl hi
  | _ => cases ht; rfl

/-- No instruction but OUT, which writes one, has to do with the output ports (R31). -/
theorem exec_with_outputPorts {i : Instr} {s t : State} (hi : i.variant ≠ .outp)
    (ht : exec i s = .next t) (p : Vector Nibble 16) :
    exec i { s with outputPorts := p } = .next { t with outputPorts := p } := by
  cases i with
  | outp _ => exact absurd rfl hi
  | _ => cases ht; rfl

theorem exec_outp_with_outputPorts {port : Nibble} {s t : State} (ht : exec (.outp port) s = .next t)
    (p : Vector Nibble 16) :
    exec (.outp port) { s with outputPorts := p } =
      .next { t with outputPorts := p.set port.toNat s.a port.isLt } := by
  cases ht
  rfl

/-- Settles O54: ST's one write is `exec_st_memRead`, and no other instruction writes. -/
theorem onlyStWritesRam : Obligations.OnlyStWritesRam := by
  intro i s hs
  obtain ⟨t, ht, -⟩ := exists_exec_next_fault i s
  refine ⟨t, ht, fun x hx => ?_⟩
  by_cases hst : i.variant = .st
  · cases i with
    | st addr =>
      have hne : x ≠ addr := fun e => hx (by rw [e])
      rw [exec_st_memRead hs ht, if_neg hne]
    | _ => cases hst
  · exact exec_sameRam ht hst x

end Sys2Proof.Machine
end

section
/-! PROOFS. Fetch and the step from a ready state (specs 20_memory.md, 40_cycle.md R91-R94): the opcode cell decides, and
an assigned code gives the variant with the operands that stand in the cells after it. -/

namespace Sys2Proof.Machine

/-! ### Fetch -/

/-- Three cells are operands enough for every variant; the ones it does not have are ignored. -/
theorem decodeOperands_three (v : Variant) (n1 n2 n3 : Nibble) :
    ∃ rest, decodeOperands v [n1, n2, n3] = .ok (v.instr n1 (directAddress n1 n2 n3), rest) := by
  cases v <;> exact ⟨_, rfl⟩

/-- The instruction fetched at an assigned code (R75, R76). -/
theorem fetchInstr_of_known {s : State} {v : Variant}
    (hcode : decodeOpcode opcodeMap (s.memRead s.pc) = some v) :
    s.fetchInstr = .ok (v.instr s.immOperand s.addrOperand) := by
  obtain ⟨rest, hrest⟩ :=
    decodeOperands_three v (s.operandCell 1) (s.operandCell 2) (s.operandCell 3)
  have hdecode : decode s.fetchCells = .ok (v.instr s.immOperand s.addrOperand, rest) :=
    (decodeWith_cons_of_known hcode _).trans hrest
  simp only [State.fetchInstr, hdecode]

/-- An unassigned code is no instruction (R78). -/
theorem fetchInstr_of_unassigned {s : State}
    (hcode : decodeOpcode opcodeMap (s.memRead s.pc) = none) :
    s.fetchInstr = .error (.unknownOpcode (s.memRead s.pc)) := by
  have hdecode : decode s.fetchCells = .error (.unknownOpcode (s.memRead s.pc)) :=
    decodeWith_cons_of_unassigned hcode _
  simp only [State.fetchInstr, hdecode]

/-- Fetch fails at an unassigned code only. -/
theorem unassigned_of_fetchInstr_error {s : State} {e : DecodeError} (h : s.fetchInstr = .error e) :
    decodeOpcode opcodeMap (s.memRead s.pc) = none := by
  cases hcode : decodeOpcode opcodeMap (s.memRead s.pc) with
  | none => rfl
  | some v => rw [fetchInstr_of_known hcode] at h; cases h

/-- Settles O6: an injective map decodes its own code, and the operand cells are `PC + 1` to `PC + 3`. -/
theorem fetchReadsOperandsInOrder : Obligations.FetchReadsOperandsInOrder := fun _ _ hcell =>
  fetchInstr_of_known ((decodeOpcode_eq_some_iff opcodeMap_injective).mpr hcell.symm)

/-- Where an instruction's operand cells stand after `PC`, fetching its variant gives the instruction. -/
theorem instr_of_holdsAtPC {i : Instr} {s : State} (h : HoldsAtPC s 1 i.operandCells) :
    i.variant.instr s.immOperand s.addrOperand = i := by
  cases i with
  | nop => rfl
  | ldi _ | stc _ | inp _ | outp _ | addi _ | cmpi _ =>
    obtain ⟨himm, -⟩ := h
    rw [State.immOperand, State.operandCell, himm]
    rfl
  | jmp _ | jc _ | jz _ | ld _ | st _ | nor _ | add _ | cmp _ =>
    obtain ⟨hn1, hn2, hn3, -⟩ := h
    rw [State.addrOperand, State.operandCell, State.operandCell, State.operandCell, hn1, hn2, hn3,
      directAddress_nibbles]
    rfl

@[simp] theorem operandAddr_zero (s : State) : s.operandAddr 0 = s.pc := by
  simp [State.operandAddr]

/-- The instruction whose encoding stands at `PC` is the one fetched. -/
theorem fetchInstr_of_holdsAtPC {i : Instr} {s : State} (h : HoldsAtPC s 0 (encode i)) :
    s.fetchInstr = .ok i := by
  obtain ⟨hopcode, hoperands⟩ := h
  rw [operandAddr_zero] at hopcode
  rw [fetchReadsOperandsInOrder s i.variant hopcode]
  exact congrArg Except.ok (instr_of_holdsAtPC hoperands)

/-! ### The step from a ready state -/

theorem step_of_fetchInstr {s : State} {i : Instr} (hs : s.ready) (hi : s.fetchInstr = .ok i) :
    step s = exec i s := by
  obtain ⟨hcomplete, hfault⟩ := hs
  simp only [step, driverStep, hcomplete, hfault, hi, if_true]

theorem step_of_unassigned {s : State} (hs : s.ready)
    (hcode : decodeOpcode opcodeMap (s.memRead s.pc) = none) :
    step s = .next (s.raiseUnknownOpcode (s.memRead s.pc)) := by
  obtain ⟨hcomplete, hfault⟩ := hs
  simp only [step, driverStep, hcomplete, hfault, fetchInstr_of_unassigned hcode, if_true]

/-- Settles O7: the instruction is the one fetched. -/
theorem stepRunsTheInstructionAtPC : Obligations.StepRunsTheInstructionAtPC := fun _ _ hs hcells =>
  step_of_fetchInstr hs (fetchInstr_of_holdsAtPC hcells)

/-- Settles O8: the step raises the exception, which writes the slot and the latch. -/
theorem stepTakesUnknownOpcode : Obligations.StepTakesUnknownOpcode := fun _ hs hcode =>
  step_of_unassigned hs hcode

/-- A step from inside an instruction goes on pulsing it. -/
theorem step_of_incomplete {s : State} (hs : s.complete = false) :
    step s = .next (runPulses params s.pulsesLeft s) := by
  simp [step, driverStep, hs]

/-- Settles O9: the driver looks at the latch before it fetches. -/
theorem stepStopsOnALatchedFault : Obligations.StepStopsOnALatchedFault := by
  intro s f hcomplete hfault
  simp only [step, driverStep, hcomplete, hfault, if_true]

end Sys2Proof.Machine
end

section
/-! PROOFS. Pulses (spec 40_cycle.md sections 3-5): the pulses of an Operation perform the scheduled actions in order, so
`PULSE_TOTAL` of them are the variant's phases, and the step is the driver's round. -/

namespace Sys2Proof.Machine

/-! ### A list of actions -/

/-- The machine with an Operation of variant `v` in the slot, `k` pulses in and with latches `l`. -/
def State.inside (s : State) (cfg : Config) (v : Variant) (k : Nat) (l : Latches) : State :=
  { s with op := some { variant := v, counter := k, total := cfg.pulseTotal v, latches := l } }

theorem startOperation_eq_inside (s : State) (cfg : Config) (v : Variant) :
    s.startOperation cfg v = s.inside cfg v 0 emptyLatches := rfl

@[simp] theorem complete_inside (s : State) (cfg : Config) (v : Variant) (k : Nat) (l : Latches) :
    (s.inside cfg v k l).complete = decide (cfg.pulseTotal v ≤ k) := rfl

@[simp] theorem pulsesLeft_inside (s : State) (cfg : Config) (v : Variant) (k : Nat) (l : Latches) :
    (s.inside cfg v k l).pulsesLeft = cfg.pulseTotal v - k := rfl

theorem performAll_append (cfg : Config) (v : Variant) (xs ys : List PulseAction) (l : Latches)
    (s : State) :
    performAll cfg v (xs ++ ys) l s =
      performAll cfg v ys (performAll cfg v xs l s).2 (performAll cfg v xs l s).1 := by
  induction xs generalizing l s with
  | nil => rfl
  | cons x xs ih => exact ih _ _

/-- Without the pc action `PC` stays. -/
theorem performAll_pc (cfg : Config) (v : Variant) {xs : List PulseAction} (hxs : .pc ∉ xs) (l : Latches)
    (s : State) : (performAll cfg v xs l s).1.pc = s.pc := by
  induction xs generalizing l s with
  | nil => rfl
  | cons x xs ih =>
    rw [List.mem_cons, not_or] at hxs
    obtain ⟨hx, hrest⟩ := hxs
    exact (ih hrest _ _).trans (performAction_pc (Ne.symm hx) cfg v l s)

/-! ### Pulses perform the scheduled actions -/

/-- The visible actions the schedule gives for the `n` pulses from pulse `k` on. -/
def actionsBetween (cfg : Config) (v : Variant) (k n : Nat) : List PulseAction :=
  (List.range' k n).filterMap (scheduledAction cfg v)

theorem actionsBetween_add (cfg : Config) (v : Variant) (k m n : Nat) :
    actionsBetween cfg v k (m + n) = actionsBetween cfg v k m ++ actionsBetween cfg v (k + m) n := by
  rw [actionsBetween, ← List.range'_append_1, List.filterMap_append]
  rfl

/-- One pulse from inside an instruction: its scheduled actions, none or one, and a count. -/
theorem pulse_inside (cfg : Config) {v : Variant} {k : Nat} (hk : k < cfg.pulseTotal v) (l : Latches)
    (s : State) :
    pulse cfg (s.inside cfg v k l) =
      (performAll cfg v (actionsBetween cfg v k 1) l s).1.inside cfg v (k + 1)
        (performAll cfg v (actionsBetween cfg v k 1) l s).2 := by
  rw [pulse_of_live rfl hk]
  cases hx : scheduledAction cfg v k with
  | none =>
    have hactions : actionsBetween cfg v k 1 = [] := by simp [actionsBetween, hx]
    rw [advanceOperation_of_settle hx, hactions]
    rfl
  | some x =>
    have hactions : actionsBetween cfg v k 1 = [x] := by simp [actionsBetween, hx]
    rw [advanceOperation_of_scheduled hx, hactions, State.inside, performAction_op]
    rfl

/-- `n` pulses from pulse `k` on perform the actions scheduled for them. -/
theorem runPulses_inside (cfg : Config) {v : Variant} {k n : Nat} (hn : k + n ≤ cfg.pulseTotal v)
    (l : Latches) (s : State) :
    runPulses cfg n (s.inside cfg v k l) =
      (performAll cfg v (actionsBetween cfg v k n) l s).1.inside cfg v (k + n)
        (performAll cfg v (actionsBetween cfg v k n) l s).2 := by
  induction n generalizing k l s with
  | zero => rfl
  | succ n ih =>
    rw [runPulses, pulse_inside cfg (by omega), ih (by omega), Nat.add_comm n 1, actionsBetween_add,
      performAll_append, Nat.add_assoc]

/-- The state `j` pulses after dispatch, up to the total. -/
theorem runPulses_startOperation (cfg : Config) {v : Variant} {j : Nat} (hj : j ≤ cfg.pulseTotal v)
    (s : State) :
    runPulses cfg j (s.startOperation cfg v) =
      (performAll cfg v (actionsBetween cfg v 0 j) emptyLatches s).1.inside cfg v j
        (performAll cfg v (actionsBetween cfg v 0 j) emptyLatches s).2 := by
  rw [startOperation_eq_inside, runPulses_inside cfg (by omega), Nat.zero_add]

/-- Settles O13: up to the total the counter is the number of pulses, and then nothing happens any more. -/
theorem completeExactlyAtTheTotal : Obligations.CompleteExactlyAtTheTotal := by
  intro cfg v s j
  rcases Nat.le_total j (cfg.pulseTotal v) with hj | hj
  · rw [runPulses_startOperation cfg hj, complete_inside]
  · have htotal : (runPulses cfg (cfg.pulseTotal v) (s.startOperation cfg v)).complete = true := by
      rw [runPulses_startOperation cfg le_rfl, complete_inside, decide_eq_true le_rfl]
    obtain ⟨m, rfl⟩ := Nat.exists_eq_add_of_le hj
    rw [runPulses_add, runPulses_of_complete htotal, htotal, decide_eq_true hj]

/-! ### A legal schedule -/

theorem risingFrom_cons {lo j : Nat} {x : PulseAction} {rest : List (Nat × PulseAction)} :
    risingFrom lo ((j, x) :: rest) = true ↔ lo ≤ j ∧ risingFrom (j + 1) rest = true := by
  simp [risingFrom]

theorem lookup_cons_eq_ite (k j : Nat) (x : PulseAction) (rest : List (Nat × PulseAction)) :
    ((j, x) :: rest).lookup k = if k = j then some x else rest.lookup k := by
  rw [List.lookup_cons]
  by_cases h : k = j
  · simp [h]
  · rw [beq_eq_false_iff_ne.mpr h, if_neg h]

theorem lookup_below_of_risingFrom {k lo : Nat} {sched : List (Nat × PulseAction)}
    (h : risingFrom lo sched = true) (hk : k < lo) : sched.lookup k = none := by
  induction sched generalizing lo with
  | nil => rfl
  | cons entry rest ih =>
    obtain ⟨j, x⟩ := entry
    obtain ⟨hj, hrest⟩ := risingFrom_cons.mp h
    have hne : k ≠ j := by omega
    rw [lookup_cons_eq_ite, if_neg hne]
    exact ih hrest (by omega)

/-- A rising schedule gives each of its indices the action listed with it. -/
theorem lookup_of_mem_risingFrom {k lo : Nat} {x : PulseAction} {sched : List (Nat × PulseAction)}
    (h : risingFrom lo sched = true) (hmem : (k, x) ∈ sched) : lo ≤ k ∧ sched.lookup k = some x := by
  induction sched generalizing lo with
  | nil => cases hmem
  | cons entry rest ih =>
    obtain ⟨j, y⟩ := entry
    obtain ⟨hj, hrest⟩ := risingFrom_cons.mp h
    rcases List.mem_cons.mp hmem with heq | htail
    · cases heq
      exact ⟨hj, by simp⟩
    · obtain ⟨hle, hlookup⟩ := ih hrest htail
      have hne : k ≠ j := by omega
      exact ⟨by omega, by rw [lookup_cons_eq_ite, if_neg hne]; exact hlookup⟩

/-- In a rising schedule the last entry has the largest index. -/
theorem le_last_of_risingFrom {lo m : Nat} {y : PulseAction} {sched : List (Nat × PulseAction)}
    (h : risingFrom lo sched = true) (hlast : sched.getLast? = some (m, y)) :
    ∀ entry ∈ sched, entry.1 ≤ m := by
  induction sched generalizing lo with
  | nil => cases hlast
  | cons entry rest ih =>
    obtain ⟨j, x⟩ := entry
    obtain ⟨-, hrest⟩ := risingFrom_cons.mp h
    cases rest with
    | nil => cases hlast; simp
    | cons next rest =>
      have htail := ih hrest (by simpa using hlast)
      have hnext : j + 1 ≤ next.1 := (risingFrom_cons.mp hrest).1
      rw [List.forall_mem_cons]
      exact ⟨by have := htail next (by simp); omega, htail⟩

/-- Looking up every index of a span that covers a rising schedule gives its actions in order. -/
theorem filterMap_lookup_range' {k n : Nat} {sched : List (Nat × PulseAction)}
    (h : risingFrom k sched = true) (hn : ∀ entry ∈ sched, entry.1 < k + n) :
    (List.range' k n).filterMap (List.lookup · sched) = sched.map Prod.snd := by
  induction n generalizing k sched with
  | zero =>
    cases sched with
    | nil => rfl
    | cons entry rest =>
      have hlow := (risingFrom_cons.mp h).1
      have hhigh := hn entry (by simp)
      omega
  | succ n ih =>
    have hspan : k + 1 + n = k + (n + 1) := by omega
    rw [List.range'_succ]
    cases sched with
    | nil => simp
    | cons entry rest =>
      obtain ⟨j, x⟩ := entry
      obtain ⟨hj, hrest⟩ := risingFrom_cons.mp h
      rcases Nat.eq_or_lt_of_le hj with rfl | hlt
      · have hhead : ((k, x) :: rest).lookup k = some x := by simp
        have htail : (List.range' (k + 1) n).filterMap (List.lookup · ((k, x) :: rest)) =
            (List.range' (k + 1) n).filterMap (List.lookup · rest) := by
          refine List.filterMap_congr fun m hm => ?_
          have hne : m ≠ k := by have := (List.mem_range'_1.mp hm).1; omega
          rw [lookup_cons_eq_ite, if_neg hne]
        have hcover : ∀ entry ∈ rest, entry.1 < k + 1 + n := fun entry hentry => by
          rw [hspan]
          exact hn entry (List.mem_cons_of_mem _ hentry)
        simp only [List.filterMap_cons, hhead, htail, List.map_cons, ih hrest hcover]
      · have hrise : risingFrom (k + 1) ((j, x) :: rest) = true := risingFrom_cons.mpr ⟨hlt, hrest⟩
        have hsettle : ((j, x) :: rest).lookup k = none :=
          lookup_below_of_risingFrom hrise (Nat.lt_succ_self k)
        simp only [List.filterMap_cons, hsettle, ih hrise (by rw [hspan]; exact hn)]

theorem scheduleFits_of_wellFormed {cfg : Config} (hcfg : cfg.wellFormed = true) (v : Variant) :
    scheduleFits v (cfg.pulseTotal v) (cfg.schedule v) = true := by
  simp only [Config.wellFormed, Bool.and_eq_true, List.all_eq_true] at hcfg
  exact hcfg.2 v (Variant.mem_all v)

/-- Under legal parameters the actions of a whole Operation are its template's phases (R10, R103). -/
theorem actionsBetween_total {cfg : Config} (hcfg : cfg.wellFormed = true) (v : Variant) :
    actionsBetween cfg v 0 (cfg.pulseTotal v) = v.template.phases := by
  have hfits := scheduleFits_of_wellFormed hcfg v
  simp only [scheduleFits, Bool.and_eq_true, decide_eq_true_eq] at hfits
  obtain ⟨⟨⟨hphases, hrising⟩, hlast⟩, hpos⟩ := hfits
  refine (filterMap_lookup_range' hrising fun entry hentry => ?_).trans hphases
  have hle := le_last_of_risingFrom hrising hlast entry hentry
  omega

/-- Settles O11: the actions of the whole Operation are the phases that `retired` performs. -/
theorem pulsesReachTheRetiredState : Obligations.PulsesReachTheRetiredState := by
  intro cfg hcfg v s
  rw [runPulses_startOperation cfg le_rfl, actionsBetween_total hcfg]
  rfl

/-- Under legal parameters the last pulse performs the pc phase (R103). -/
theorem scheduledAction_last {cfg : Config} (hcfg : cfg.wellFormed = true) (v : Variant) :
    scheduledAction cfg v (cfg.pulseTotal v - 1) = some .pc := by
  have hfits := scheduleFits_of_wellFormed hcfg v
  simp only [scheduleFits, Bool.and_eq_true, decide_eq_true_eq] at hfits
  obtain ⟨⟨⟨hphases, hrising⟩, hlast⟩, hpos⟩ := hfits
  exact (lookup_of_mem_risingFrom hrising (List.mem_of_getLast? hlast)).2

theorem count_pc_phases (v : Variant) : v.template.phases.count .pc = 1 := by
  cases v.template <;> rfl

/-- The pc action is the one of the last pulse, so no earlier pulse performs it. -/
theorem pc_not_mem_actionsBetween {cfg : Config} (hcfg : cfg.wellFormed = true) {v : Variant} {j : Nat}
    (hj : j < cfg.pulseTotal v) : .pc ∉ actionsBetween cfg v 0 j := by
  have hlast : .pc ∈ actionsBetween cfg v j (cfg.pulseTotal v - j) :=
    List.mem_filterMap.mpr
      ⟨cfg.pulseTotal v - 1, List.mem_range'_1.mpr (by omega), scheduledAction_last hcfg v⟩
  have hcount : (actionsBetween cfg v 0 j).count .pc +
      (actionsBetween cfg v j (cfg.pulseTotal v - j)).count .pc = 1 := by
    rw [← count_pc_phases v, ← actionsBetween_total hcfg, ← List.count_append]
    conv_rhs => rw [← Nat.add_sub_cancel' hj.le, actionsBetween_add, Nat.zero_add]
  have hpositive := List.count_pos_iff.mpr hlast
  exact List.count_eq_zero.mp (by omega)

/-- Settles O14: without the pc action `PC` stays. -/
theorem pcKeepsTheOpcodeAddressWhileLive : Obligations.PCKeepsTheOpcodeAddressWhileLive := by
  intro cfg hcfg v s j hj
  rw [runPulses_startOperation cfg hj.le]
  exact performAll_pc cfg v (pc_not_mem_actionsBetween hcfg hj) emptyLatches s

/-! ### The step and its pulses -/

theorem params_wellFormed : params.wellFormed = true := by decide

/-- Settles O10: the step adds the pulses that are left. -/
theorem stepFinishesALiveOperation : Obligations.StepFinishesALiveOperation := by
  intro s v j hj
  have hlive : (runPulses params j (s.startOperation params v)).complete = false := by
    rw [completeExactlyAtTheTotal, decide_eq_false (by omega)]
  have hleft : (runPulses params j (s.startOperation params v)).pulsesLeft = params.pulseTotal v - j := by
    rw [runPulses_startOperation params hj.le, pulsesLeft_inside]
  rw [step_of_incomplete hlive, hleft, ← runPulses_add, Nat.add_sub_cancel' hj.le,
    pulsesReachTheRetiredState params params_wellFormed]

/-- The three operand fetches of format D latch the nibbles of the address (R106). -/
theorem directLatches_addrOperand (s : State) :
    directLatches s.addrOperand =
      { emptyLatches with n1 := s.operandCell 1, n2 := s.operandCell 2, n3 := s.operandCell 3 } := by
  simp [directLatches, State.addrOperand]

/-- A variant's meaning, on the operands that stand after `PC`, is its phases in order (R110). -/
theorem exec_fetched (v : Variant) (s : State) :
    exec (v.instr s.immOperand s.addrOperand) s = .next (retired params v s) := by
  cases v with
  | nop | ldi | stc | inp | outp | addi | cmpi => rfl
  | jmp | jc | jz | ld | st | nor | add | cmp =>
    simp only [Variant.instr, exec, execJmp, execJc, execJz, execLd, execSt, execNor, execAdd, execCmp,
      directLatches_addrOperand]
    rfl

/-- Settles O12: an instruction whose operands stand after `PC` is its variant on those operands. -/
theorem execIsThePhasesInOrder : Obligations.ExecIsThePhasesInOrder := by
  intro i s hcells
  calc exec i s = exec (i.variant.instr s.immOperand s.addrOperand) s := by
        rw [instr_of_holdsAtPC hcells]
    _ = .next (retired params i.variant s) := exec_fetched i.variant s

/-- At an assigned code the step retires that code's variant. -/
theorem step_of_known {s : State} {v : Variant} (hs : s.ready)
    (hcode : decodeOpcode opcodeMap (s.memRead s.pc) = some v) : step s = .next (retired params v s) := by
  rw [step_of_fetchInstr hs (fetchInstr_of_known hcode), exec_fetched]

theorem dispatchCode_of_known {cfg : Config} {code : Nibble} {v : Variant}
    (hcode : decodeOpcode cfg.opcodeMap code = some v) (s : State) :
    s.dispatchCode cfg code = s.startOperation cfg v := by
  simp only [State.dispatchCode, hcode]

theorem dispatchCode_of_unassigned {cfg : Config} {code : Nibble}
    (hcode : decodeOpcode cfg.opcodeMap code = none) (s : State) :
    s.dispatchCode cfg code = s.raiseUnknownOpcode code := by
  simp only [State.dispatchCode, hcode]

theorem applyEvent_decode_of_ready {s : State} (hs : s.ready) (cfg : Config) :
    applyEvent cfg .decode s = .next (s.dispatchCode cfg (s.memRead s.pc)) :=
  dispatchEvent_eq_next_iff.mpr ⟨hs, rfl⟩

theorem driverRound_of_ready {s : State} (hs : s.ready) (cfg : Config) :
    driverRound cfg s =
      .next (runPulses cfg (s.dispatchCode cfg (s.memRead s.pc)).pulsesLeft
        (s.dispatchCode cfg (s.memRead s.pc))) := by
  simp only [driverRound, applyEvent_decode_of_ready hs]

/-- Settles O15: an assigned code's Operation takes its total of pulses to the retired state, and after the exception the
slot is empty. -/
theorem stepIsOneDriverRound : Obligations.StepIsOneDriverRound := by
  intro s hs
  rw [driverRound_of_ready hs]
  obtain ⟨v, hcode, hdispatch⟩ | ⟨hcode, hdispatch⟩ := dispatchCode_cases params (s.memRead s.pc) s
  · rw [step_of_known hs hcode, hdispatch, pulsesLeft_startOperation,
      pulsesReachTheRetiredState params params_wellFormed]
  · rw [step_of_unassigned hs hcode, hdispatch]
    rfl

@[simp] theorem complete_retired (cfg : Config) (v : Variant) (s : State) :
    (retired cfg v s).complete = true :=
  decide_eq_true le_rfl

@[simp] theorem retired_fault (v : Variant) (s : State) : (retired params v s).fault = s.fault := by
  rw [← pulsesReachTheRetiredState params params_wellFormed, runPulses_fault, startOperation_fault]

/-- Settles O16: an assigned code retires with the latch still clear, any other code is latched. -/
theorem readyMachineAlwaysSteps : Obligations.ReadyMachineAlwaysSteps := by
  intro s hs
  cases hcode : decodeOpcode opcodeMap (s.memRead s.pc) with
  | some v =>
    exact ⟨_, step_of_known hs hcode, complete_retired params v s, by simp [hs.2]⟩
  | none => exact ⟨_, step_of_unassigned hs hcode, rfl, by simp⟩

/-- Settles O28: a look-up in the default schedule of the template. -/
theorem defaultScheduleIsTheTabled : Obligations.DefaultScheduleIsTheTabled := by
  intro v k
  have hlookup : scheduledAction params v k = (defaultSchedule v.template).lookup k := rfl
  refine ⟨fun hv => ?_, fun hv => ?_, fun hv => ?_⟩ <;> rw [hlookup, hv] <;>
    simp only [defaultSchedule, lookup_cons_eq_ite, List.lookup_nil]

end Sys2Proof.Machine
end

section
/-! PROOFS. Events (specs 10_state.md section 8, 40_cycle.md R92, 60_exceptions.md, 70_reset_and_hazards.md): when each
event is taken, what it does to the latch, and that a harness write touches one register. -/

namespace Sys2Proof.Machine

/-! ### Which events are taken -/

theorem dispatchEvent_of_incomplete {s : State} (hs : s.complete = false) (cfg : Config) (code : Nibble) :
    dispatchEvent cfg code s = .refused .dispatchWhileLive := by
  simp [dispatchEvent, hs]

theorem dispatchEvent_of_latched {s : State} (hcomplete : s.complete = true) (hfault : s.fault ≠ none)
    (cfg : Config) (code : Nibble) : dispatchEvent cfg code s = .refused .dispatchWhileFaulted := by
  simp [dispatchEvent, hcomplete, Option.isSome_iff_ne_none, hfault]

theorem applyEvent_reset {s : State} (hs : s.boundaryOrFaulted = true) (cfg : Config) :
    applyEvent cfg .reset s = .next State.reset := by
  simp [applyEvent, hs]

theorem applyEvent_read {s : State} (hs : s.boundaryOrFaulted = true) (cfg : Config) (r : RegSel) :
    applyEvent cfg (.read r) s = .next s := by
  simp [applyEvent, hs]

theorem harnessRead_ok {s : State} (hs : s.boundaryOrFaulted = true) (r : RegSel) :
    harnessRead s r = .ok (s.harnessValue r) := by
  simp [harnessRead, hs]

theorem boundaryOrFaulted_of_complete {s : State} (hs : s.complete = true) :
    s.boundaryOrFaulted = true := by
  simp [State.boundaryOrFaulted, hs]

/-- Settles O22: the admission checks come in that order, and an admitted `Dispatch` is `dispatchCode`. -/
theorem dispatchStartsOrFaultsOrIsRefused : Obligations.DispatchStartsOrFaultsOrIsRefused := by
  intro cfg s code
  refine ⟨fun hs => dispatchEvent_of_incomplete hs cfg code,
    fun hs hf => dispatchEvent_of_latched hs hf cfg code, fun hs hf => ?_⟩
  refine ⟨_, dispatchEvent_eq_next_iff.mpr ⟨⟨hs, hf⟩, rfl⟩, fun v hv => ?_, fun hnone => ?_⟩
  · rw [dispatchCode_of_known hv]
    exact ⟨rfl, hf⟩
  · rw [dispatchCode_of_unassigned hnone]
    exact ⟨rfl, rfl⟩

/-- Settles O24: inside an instruction `complete` is false and there is no fault, so only `Pulse` is admitted. -/
theorem onlyPulseRunsInsideAnInstruction : Obligations.OnlyPulseRunsInsideAnInstruction := by
  intro cfg s hs hf
  have hinside : s.boundaryOrFaulted = false := by simp [State.boundaryOrFaulted, hs, hf]
  refine ⟨?reset, dispatchEvent_of_incomplete hs cfg _,
    fun code => dispatchEvent_of_incomplete hs cfg code, fun r v => ?write, fun r => ⟨?read, ?value⟩,
    _, rfl⟩
  case reset => simp [applyEvent, hinside]
  case write => simp [applyEvent, hs]
  case read => simp [applyEvent, hinside]
  case value => simp [harnessRead, hinside]

/-- A latched fault stands beside an empty slot, so the machine is at a boundary. -/
theorem complete_of_latched {cfg : Config} {s : State} {f : Fault} (hlatch : latchOk cfg s)
    (hf : s.fault = some f) : s.complete = true := by
  obtain ⟨code, pc⟩ := f
  exact complete_of_op_none s (hlatch code pc hf).1

/-- An event that is taken with the latch set does not touch the latch, unless it is Reset (R163). -/
theorem applyEvent_fault_of_latched {cfg : Config} {e : Event} {s t : State} {f : Fault}
    (hf : s.fault = some f) (he : e ≠ .reset) (ht : applyEvent cfg e s = .next t) : t.fault = some f := by
  have hdispatch (code : Nibble) : dispatchEvent cfg code s ≠ .next t := fun h => by
    obtain ⟨⟨-, hnone⟩, -⟩ := dispatchEvent_eq_next_iff.mp h
    rw [hf] at hnone
    cases hnone
  cases e with
  | reset => exact absurd rfl he
  | decode => exact absurd ht (hdispatch _)
  | dispatch code => exact absurd ht (hdispatch code)
  | pulse => cases ht; rw [pulse_fault, hf]
  | write r v =>
    simp only [applyEvent] at ht
    split at ht <;> cases ht
    rw [harnessWrite_fault, hf]
  | read r =>
    simp only [applyEvent] at ht
    split at ht <;> cases ht
    exact hf

/-- Settles O23: a faulted machine is at a boundary with the slot empty, and no event but Reset touches its latch. -/
theorem latchedFaultStaysUntilReset : Obligations.LatchedFaultStaysUntilReset := by
  intro cfg s f hlatch hf
  have hcomplete := complete_of_latched hlatch hf
  have hboundary := boundaryOrFaulted_of_complete hcomplete
  have hset : s.fault ≠ none := by simp [hf]
  have hpulse : applyEvent cfg .pulse s = .next s := congrArg _ (pulse_of_complete hcomplete)
  exact ⟨fun e t he ht => applyEvent_fault_of_latched hf he ht,
    dispatchEvent_of_latched hcomplete hset cfg _,
    fun code => dispatchEvent_of_latched hcomplete hset cfg code, hpulse,
    applyEvent_reset hboundary cfg,
    fun r => ⟨applyEvent_read hboundary cfg r, harnessRead_ok hboundary r⟩,
    fun r v => applyEvent_write_of_complete hcomplete cfg r v⟩

/-- Every register of the reset state reads 0 (R22, R180). -/
theorem harnessValue_reset (r : RegSel) : State.reset.harnessValue r = 0 := by
  cases r with
  | inputPort i => simp [State.harnessValue, State.portIn, State.reset]
  | outputPort i => simp [State.harnessValue, State.outputAt, State.reset]
  | _ => rfl

/-- Settles O20: the event is admitted there, and its state holds 0 everywhere. -/
theorem resetZeroesTheMachine : Obligations.ResetZeroesTheMachine :=
  ⟨fun cfg _ hs => applyEvent_reset hs cfg, harnessValue_reset, rfl, rfl⟩

/-! ### Harness writes -/

@[simp] theorem harnessWrite_op (s : State) (r : RegSel) (v : Int) :
    (s.harnessWrite r v).op = s.op := by
  cases r <;> rfl

/-- A harness read is admitted after every admitted harness write. -/
theorem harnessRead_harnessWrite {s : State} (hs : s.complete = true) (r q : RegSel) (v : Int) :
    harnessRead (s.harnessWrite r v) q = .ok ((s.harnessWrite r v).harnessValue q) := by
  have hcomplete : (s.harnessWrite r v).complete = true := by
    rw [State.complete, harnessWrite_op]
    exact hs
  exact harnessRead_ok (boundaryOrFaulted_of_complete hcomplete) q

/-- Settles O30: two indices of one array can differ, and everything else is another field. -/
theorem harnessWriteTouchesOneRegister : Obligations.HarnessWriteTouchesOneRegister := by
  intro s r q v hs hq
  refine ⟨?_, harnessWrite_op s r v, harnessWrite_fault s r v⟩
  cases r with
  | ram i =>
    cases q with
    | ram j =>
      have hne : j ≠ i := fun h => hq (by rw [h])
      simp [State.harnessWrite, State.harnessValue, memRead_memWrite hs, hne]
    | _ => rfl
  | inputPort i =>
    cases q with
    | inputPort j =>
      have hne : j ≠ i := fun h => hq (by rw [h])
      simp [State.harnessWrite, State.harnessValue, portIn_setInput, hne]
    | _ => rfl
  | outputPort i =>
    cases q with
    | outputPort j =>
      have hne : j ≠ i := fun h => hq (by rw [h])
      simp [State.harnessWrite, State.harnessValue, outputAt_portOut, hne]
    | _ => rfl
  | a | c | z | pc => cases q <;> first | rfl | exact absurd rfl hq

/-- Settles O53: the instructions' part is what `exec` keeps and does not read, the harness's part reads back the port
just written. -/
theorem portWritersAndReaders : Obligations.PortWritersAndReaders := by
  refine ⟨fun i s => ?instructions, fun cfg s k v hs => ⟨?input, ?output⟩⟩
  case instructions =>
    obtain ⟨t, ht, -⟩ := exists_exec_next_fault i s
    refine ⟨t, ht, exec_inputPorts ht, exec_outputPorts ht, fun hi p => exec_with_inputPorts hi ht p,
      fun hi p => exec_with_outputPorts hi ht p, ?_⟩
    rintro port rfl p
    exact exec_outp_with_outputPorts ht p
  case input =>
    have hport : (s.harnessWrite (.inputPort k) v.toNat).portIn k = v := by
      simp [State.harnessWrite, portIn_setInput, setReg]
    refine ⟨_, applyEvent_write_of_complete hs cfg _ _, hport, ?_⟩
    rw [harnessRead_harnessWrite hs, State.harnessValue, hport]
  case output =>
    have hport : (s.harnessWrite (.outputPort k) v.toNat).outputAt k = v := by
      simp [State.harnessWrite, outputAt_portOut, setReg]
    refine ⟨_, applyEvent_write_of_complete hs cfg _ _, hport, ?_⟩
    rw [harnessRead_harnessWrite hs, State.harnessValue, hport]

/-! ### The register primitives -/

/-- `increment` is the register primitive on the integer one further (R20, R21). -/
theorem increment_eq_setReg {w : Nat} (r : BitVec w) : increment r = setReg w (r.toNat + 1) := by
  simp [increment, setReg, BitVec.ofInt_add]

/-- `decrement` is the register primitive on the integer one back (R20, R21). -/
theorem decrement_eq_setReg {w : Nat} (r : BitVec w) : decrement r = setReg w (r.toNat - 1) := by
  simp [decrement, setReg, sub_eq_add_neg, BitVec.ofInt_add, BitVec.ofInt_neg]

/-- Settles O31: both primitives keep the residue of the integer. -/
theorem incrementAndDecrementWrap : Obligations.IncrementAndDecrementWrap := by
  intro w r
  refine ⟨?_, ?_⟩
  · rw [increment_eq_setReg, ← Int.ofNat_inj, setReg_toNat]
    norm_cast
  · rw [decrement_eq_setReg, setReg_toNat]

end Sys2Proof.Machine
end

section
/-! PROOFS. The invariant (spec 10_state.md section 9): every event and every step keeps RAM in canonical form, the slot's
Operation within its total, and a latched fault beside an empty slot. -/

namespace Sys2Proof.Machine

/-- Settles O19: no cell, no Operation and no fault. -/
theorem resetMeetsTheInvariant : Obligations.ResetMeetsTheInvariant := by
  refine ⟨fun cfg => ⟨reset_ram_wf, ?slot, ?latch⟩, rfl, rfl⟩
  case slot => intro o ho; cases ho
  case latch => intro code pc hf; cases hf

section
variable {cfg : Config} {s t : State}

/-- The invariant looks at RAM, the slot and the latch only. -/
theorem inv_of_same (hs : s.Inv cfg) (hram : t.ram.wf = true) (hop : t.op = s.op)
    (hfault : t.fault = s.fault) : t.Inv cfg := by
  obtain ⟨-, hslot, hlatch⟩ := hs
  refine ⟨hram, fun o ho => hslot o (hop ▸ ho), fun code pc hf => ?_⟩
  rw [hop]
  exact hlatch code pc (hfault ▸ hf)

/-- With the latch clear, an Operation with its variant's total and a counter within it meets the invariant. -/
theorem inv_of_op {o : Operation} (hram : t.ram.wf = true) (hop : t.op = some o)
    (hcounter : o.counter ≤ o.total) (htotal : o.total = cfg.pulseTotal o.variant)
    (hfault : t.fault = none) : t.Inv cfg := by
  refine ⟨hram, fun p hp => ?_, fun code pc hf => ?_⟩
  · rw [hop] at hp
    cases hp
    exact ⟨hcounter, htotal⟩
  · rw [hfault] at hf
    cases hf

theorem inv_raiseUnknownOpcode {code : Nibble} (hs : s.Inv cfg)
    (hcode : decodeOpcode cfg.opcodeMap code = none) : (s.raiseUnknownOpcode code).Inv cfg := by
  refine ⟨hs.1, fun o ho => ?_, fun k pc hf => ?_⟩
  · cases ho
  · cases hf
    exact ⟨rfl, hcode⟩

theorem inv_dispatchCode (hs : s.Inv cfg) (hf : s.fault = none) (code : Nibble) :
    (s.dispatchCode cfg code).Inv cfg := by
  obtain ⟨v, -, h⟩ | ⟨hcode, h⟩ := dispatchCode_cases cfg code s <;> rw [h]
  · exact inv_of_op hs.1 (startOperation_op s cfg v) (Nat.zero_le _) rfl hf
  · exact inv_raiseUnknownOpcode hs hcode

/-- An Operation in the slot of a state that meets the invariant stands beside a clear latch. -/
theorem fault_eq_none_of_op_some {o : Operation} (hlatch : latchOk cfg s) (ho : s.op = some o) :
    s.fault = none := by
  cases hf : s.fault with
  | none => rfl
  | some f =>
    obtain ⟨code, pc⟩ := f
    rw [(hlatch code pc hf).1] at ho
    cases ho

theorem wf_of_same_or_write {m m' : Memory} (hm : m.wf = true)
    (h : m' = m ∨ ∃ a n, m' = m.write a n) : m'.wf = true := by
  obtain rfl | ⟨a, n, rfl⟩ := h
  · exact hm
  · exact Memory.write_wf hm a n

theorem inv_pulse (hs : s.Inv cfg) : (pulse cfg s).Inv cfg := by
  obtain ⟨hram, hslot, hlatch⟩ := hs
  obtain ⟨-, hidle⟩ | ⟨o, ho, hk, hadvance⟩ := pulse_cases cfg s
  · rw [hidle]
    exact ⟨hram, hslot, hlatch⟩
  · obtain ⟨hfault, -, hcells⟩ := advanceOperation_frame cfg o s
    obtain ⟨l, hop⟩ := advanceOperation_op cfg o s
    rw [hadvance]
    exact inv_of_op (wf_of_same_or_write hram hcells) hop hk (hslot o ho).2
      (hfault.trans (fault_eq_none_of_op_some hlatch ho))

theorem harnessWrite_ram_wf (hs : s.ram.wf = true) (r : RegSel) (v : Int) :
    (s.harnessWrite r v).ram.wf = true := by
  cases r with
  | ram i => exact Memory.write_wf hs i _
  | _ => exact hs

theorem inv_exec {i : Instr} (hs : s.Inv params) (hf : s.fault = none) (ht : exec i s = .next t) :
    t.Inv params := by
  obtain ⟨u, l, p, hu, hfault, -, hram⟩ := exec_cases i s
  rw [hu] at ht
  cases ht
  have hwf : u.ram.wf = true :=
    wf_of_same_or_write hs.1 (hram.imp_right fun ⟨addr, _, h⟩ => ⟨addr, s.a, h⟩)
  exact inv_of_op hwf (retire_op u params i.variant l p) le_rfl rfl (hfault.trans hf)

end

/-- Settles O18: the case of each event. -/
theorem everyEventKeepsTheInvariant : Obligations.EveryEventKeepsTheInvariant := by
  intro cfg e s t hs ht
  have hdispatch {code : Nibble} (h : dispatchEvent cfg code s = .next t) : t.Inv cfg := by
    obtain ⟨⟨-, hf⟩, rfl⟩ := dispatchEvent_eq_next_iff.mp h
    exact inv_dispatchCode hs hf code
  cases e with
  | reset =>
    simp only [applyEvent] at ht
    split at ht <;> cases ht
    exact resetMeetsTheInvariant.1 cfg
  | decode => exact hdispatch ht
  | dispatch code => exact hdispatch ht
  | pulse => cases ht; exact inv_pulse hs
  | write r v =>
    simp only [applyEvent] at ht
    split at ht <;> cases ht
    exact inv_of_same hs (harnessWrite_ram_wf hs.1 r v) (harnessWrite_op s r v) (harnessWrite_fault s r v)
  | read r =>
    simp only [applyEvent] at ht
    split at ht <;> cases ht
    exact hs

/-- Settles O17: the three ways a step has a next state. -/
theorem stepKeepsTheInvariant : Obligations.StepKeepsTheInvariant := by
  intro s t hs ht
  obtain ⟨-, hf, i, -, hexec⟩ | ⟨-, -, ⟨e, he⟩, hraise⟩ | ⟨f, -, -, hstop⟩ | ⟨-, hpulses⟩ := step_cases s
  · exact inv_exec hs hf (hexec.symm.trans ht)
  · rw [hraise] at ht
    cases ht
    exact inv_raiseUnknownOpcode hs (unassigned_of_fetchInstr_error he)
  · rw [hstop] at ht
    cases ht
  · rw [hpulses] at ht
    cases ht
    exact runPulses_keeps (fun u => u.Inv params) (fun _ => inv_pulse) _ hs

end Sys2Proof.Machine
end

section
/-! PROOFS. Stores into code (spec 20_memory.md section 7): a ST at `PC` stores to the address it was fetched with, and
the next decode sees the stored cell. -/

namespace Sys2Proof.Machine

theorem RetiredAs.complete {v : Variant} {l : Latches} {t : State} (h : RetiredAs v l t) :
    t.complete = true := by
  rw [complete_of_op_some t h, decide_eq_true le_rfl]

/-- The step of a ready machine with `ST addr` at `PC` (R132). -/
theorem step_st {s : State} {addr : Addr} (hram : s.ram.wf = true) (hs : s.ready)
    (hcells : HoldsAtPC s 0 (encode (.st addr))) :
    ∃ t, step s = .next t ∧ t.memRead addr = s.a ∧ (∀ x, x ≠ addr → t.memRead x = s.memRead x) ∧
      t.pc = s.pc + 4 ∧ t.ready := by
  obtain ⟨t, ht, hcell, hother, hpc, -, -, -, hfault, hop⟩ := stStoresTheAccumulator addr s hram
  exact ⟨t, (stepRunsTheInstructionAtPC s _ hs hcells).trans ht, hcell, hother, hpc, hop.complete,
    hfault.trans hs.2⟩

/-- Settles O56: the step is `exec` of the ST fetched, wherever its address points. -/
theorem storeIntoItsOwnCellsKeepsItsTarget : Obligations.StoreIntoItsOwnCellsKeepsItsTarget := by
  rintro s addr j hram hs - rfl hcells
  exact step_st hram hs hcells

/-- Settles O57: the cell stored to is the opcode cell of the next step. -/
theorem storeIsSeenByTheNextDecode : Obligations.StoreIsSeenByTheNextDecode := by
  rintro s addr hram hs rfl hcells
  obtain ⟨t, ht, hcell, -, hpc, hready⟩ := step_st hram hs hcells
  have hopcode : t.memRead t.pc = s.a := by rw [hpc, hcell]
  refine ⟨t, ht, hpc, congrArg some hopcode, fun ha => ?unknown, fun ha => ?nop⟩
  case unknown =>
    rw [ha] at hopcode
    rw [step_of_unassigned hready (by rw [hopcode]; decide), hopcode]
  case nop =>
    rw [ha] at hopcode
    exact step_of_fetchInstr hready (fetchReadsOperandsInOrder t .nop hopcode)

end Sys2Proof.Machine
end

section
/-! PROOFS. Runs (spec 70_reset_and_hazards.md sections 2, 5 and 6): what a finished run has met, where it stops, and which
events it is made of. -/

namespace Sys2Proof.Machine

/-! ### Runs of whole retirements -/

@[simp] theorem afterRetirements_zero_eq_some {s t : State} :
    afterRetirements 0 s = some t ↔ s.ready ∧ s = t := by
  rw [← observable_iff_ready]
  by_cases hs : s.observable = true <;> simp [afterRetirements, hs]

/-- A run that goes on has a first step with a next state. -/
theorem afterRetirements_succ_eq_some {n : Nat} {s t : State} :
    afterRetirements (n + 1) s = some t ↔ ∃ u, step s = .next u ∧ afterRetirements n u = some t := by
  cases hstep : step s <;> simp [afterRetirements, hstep]

/-- A finished run may be observed (R192). -/
theorem afterRetirements_ready {n : Nat} {s t : State} (h : afterRetirements n s = some t) :
    t.ready := by
  induction n generalizing s with
  | zero =>
    obtain ⟨hs, rfl⟩ := afterRetirements_zero_eq_some.mp h
    exact hs
  | succ n ih =>
    obtain ⟨u, -, hu⟩ := afterRetirements_succ_eq_some.mp h
    exact ih hu

/-- A run goes on where its first part ends. -/
theorem afterRetirements_add {m : Nat} {s t : State} (h : afterRetirements m s = some t) (n : Nat) :
    afterRetirements (m + n) s = afterRetirements n t := by
  induction m generalizing s with
  | zero =>
    obtain ⟨-, rfl⟩ := afterRetirements_zero_eq_some.mp h
    rw [Nat.zero_add]
  | succ m ih =>
    obtain ⟨u, hstep, hu⟩ := afterRetirements_succ_eq_some.mp h
    rw [Nat.succ_add, afterRetirements_succ hstep, ih hu]

/-- No step clears the latch. -/
theorem step_fault {s t : State} {f : Fault} (hf : s.fault = some f) (ht : step s = .next t) :
    t.fault = some f := by
  obtain ⟨-, hnone, -⟩ | ⟨-, hnone, -⟩ | ⟨g, -, -, hstop⟩ | ⟨-, hpulses⟩ := step_cases s
  · rw [hf] at hnone; cases hnone
  · rw [hf] at hnone; cases hnone
  · rw [hstop] at ht; cases ht
  · rw [hpulses] at ht; cases ht; rw [runPulses_fault, hf]

/-- A run from a fault does not finish (R192). -/
theorem afterRetirements_of_fault {s : State} {f : Fault} (hf : s.fault = some f) (n : Nat) :
    afterRetirements n s = none := by
  induction n generalizing s with
  | zero => simp [afterRetirements, hf]
  | succ n ih =>
    cases hstep : step s with
    | next t => rw [afterRetirements_succ hstep, ih (step_fault hf hstep)]
    | fault g => simp [afterRetirements, hstep]
    | refused r => simp [afterRetirements, hstep]

/-- A run that reaches an unassigned code does not finish after it. -/
theorem afterRetirements_of_unassigned {s : State} (hs : s.ready)
    (hcode : decodeOpcode opcodeMap (s.memRead s.pc) = none) (n : Nat) :
    afterRetirements (n + 1) s = none := by
  rw [afterRetirements_succ (step_of_unassigned hs hcode)]
  exact afterRetirements_of_fault (raiseUnknownOpcode_fault s _) n

/-! ### The first boundary at a stop address -/

theorem firstBoundaryAt_of_stopsAt {stop : Addr} {s : State} (hs : s.stopsAt stop = true) (n : Nat) :
    firstBoundaryAt stop n s = some (0, s) := by
  cases n <;> simp [firstBoundaryAt, hs]

/-- Everything a search that finds a boundary can do: stop at once, or make a step and go on. -/
theorem firstBoundaryAt_cases {stop : Addr} {n m : Nat} {s t : State}
    (h : firstBoundaryAt stop n s = some (m, t)) :
    (s.stopsAt stop = true ∧ m = 0 ∧ t = s) ∨
      (s.stopsAt stop = false ∧ ∃ n' m' u, n = n' + 1 ∧ m = m' + 1 ∧ step s = .next u ∧
        firstBoundaryAt stop n' u = some (m', t)) := by
  cases hs : s.stopsAt stop with
  | true =>
    rw [firstBoundaryAt_of_stopsAt hs] at h
    cases h
    exact .inl ⟨rfl, rfl, rfl⟩
  | false =>
    cases n with
    | zero => simp [firstBoundaryAt, hs] at h
    | succ n =>
      cases hstep : step s with
      | next u =>
        simp only [firstBoundaryAt, hs, hstep, Bool.false_eq_true, if_false, Option.map_eq_some_iff] at h
        obtain ⟨⟨m', t'⟩, hu, heq⟩ := h
        cases heq
        exact .inr ⟨rfl, n, m', u, rfl, rfl, rfl, hu⟩
      | fault f => simp [firstBoundaryAt, hs, hstep] at h
      | refused r => simp [firstBoundaryAt, hs, hstep] at h

/-- Where a run first stops it is the run of that many retirements, and it stood elsewhere before (R192). -/
theorem firstBoundaryAt_spec {stop : Addr} {n m : Nat} {s t : State}
    (h : firstBoundaryAt stop n s = some (m, t)) :
    t.ready ∧ t.pc = stop ∧ m ≤ n ∧ afterRetirements m s = some t ∧
      ∀ k u, k < m → afterRetirements k s = some u → u.pc ≠ stop := by
  induction m generalizing n s with
  | zero =>
    obtain ⟨hs, -, rfl⟩ | ⟨-, _, _, _, -, hm, -⟩ := firstBoundaryAt_cases h
    · obtain ⟨hready, hpc⟩ := (stopsAt_iff t stop).mp hs
      exact ⟨hready, hpc, Nat.zero_le n, afterRetirements_zero_eq_some.mpr ⟨hready, rfl⟩,
        fun k u hk => absurd hk (Nat.not_lt_zero k)⟩
    · cases hm
  | succ m ih =>
    obtain ⟨-, hm, -⟩ | ⟨hs, n, _, u, rfl, hm, hstep, hu⟩ := firstBoundaryAt_cases h <;> cases hm
    obtain ⟨hready, hpc, hle, hrun, hfirst⟩ := ih hu
    refine ⟨hready, hpc, Nat.succ_le_succ hle, (afterRetirements_succ hstep m).trans hrun,
      fun k w hk hw => ?_⟩
    cases k with
    | zero =>
      obtain ⟨hsready, rfl⟩ := afterRetirements_zero_eq_some.mp hw
      intro hspc
      rw [(stopsAt_iff s stop).mpr ⟨hsready, hspc⟩] at hs
      cases hs
    | succ k =>
      rw [afterRetirements_succ hstep] at hw
      exact hfirst k w (Nat.lt_of_succ_lt_succ hk) hw

theorem firstBoundaryAt_of_fault {s : State} {f : Fault} (hf : s.fault = some f) (stop : Addr) (n : Nat) :
    firstBoundaryAt stop n s = none := by
  rw [Option.eq_none_iff_forall_ne_some]
  rintro ⟨m, t⟩ h
  obtain ⟨-, -, -, hrun, -⟩ := firstBoundaryAt_spec h
  rw [afterRetirements_of_fault hf] at hrun
  cases hrun

/-! ### The events of a retirement -/

/-- Pulses from a state without a fault: the run goes on where they lead, with one more retirement if they complete the
Operation in the slot. -/
theorem runFrom_pulses {cfg : Config} {s : State} (hf : s.fault = none) (n : Nat) (es : List Event)
    (k : Nat) :
    runFrom cfg (List.replicate n .pulse ++ es) s k =
      runFrom cfg es (runPulses cfg n s)
        (if s.complete = false ∧ (runPulses cfg n s).complete = true then k + 1 else k) := by
  induction n generalizing s k with
  | zero => cases hs : s.complete <;> simp [runPulses, hs]
  | succ n ih =>
    rw [List.replicate_succ, List.cons_append, runFrom_cons_next hf rfl,
      ih ((pulse_fault cfg s).trans hf), countRetirement_pulse, runPulses]
    cases hs : s.complete with
    | true => simp [pulse_of_complete hs, hs]
    | false =>
      cases hp : (pulse cfg s).complete with
      | true => simp [runPulses_of_complete hp, hp]
      | false => simp

/-- The events of the driver's round at an assigned code: `Decode`, then the variant's pulses (R91). -/
def roundEvents (v : Variant) : List Event := .decode :: List.replicate (params.pulseTotal v) .pulse

theorem mem_roundEvents {v : Variant} {e : Event} (he : e ∈ roundEvents v) : e = .decode ∨ e = .pulse := by
  rw [roundEvents, List.mem_cons] at he
  exact he.imp_right List.eq_of_mem_replicate

theorem count_decode_roundEvents (v : Variant) : (roundEvents v).count .decode = 1 := by
  simp [roundEvents, List.count_replicate]

theorem count_pulse_roundEvents (v : Variant) : (roundEvents v).count .pulse = params.pulseTotal v := by
  simp [roundEvents]

theorem pulseTotal_params_pos (v : Variant) : 0 < params.pulseTotal v := by
  cases v <;> decide

/-- The round's events retire the variant at `PC`, and that is one retirement. -/
theorem runFrom_roundEvents {s : State} {v : Variant} (hs : s.ready)
    (hcode : decodeOpcode opcodeMap (s.memRead s.pc) = some v) (es : List Event) (k : Nat) :
    runFrom params (roundEvents v ++ es) s k = runFrom params es (retired params v s) (k + 1) := by
  have hdecode : applyEvent params .decode s = .next (s.startOperation params v) :=
    (applyEvent_decode_of_ready hs params).trans (congrArg _ (dispatchCode_of_known hcode s))
  have hstart : (s.startOperation params v).complete = false :=
    decide_eq_false (Nat.not_le_of_lt (pulseTotal_params_pos v))
  rw [roundEvents, List.cons_append, runFrom_cons_next hs.2 hdecode,
    runFrom_pulses ((startOperation_fault s params v).trans hs.2),
    pulsesReachTheRetiredState params params_wellFormed, hstart, complete_retired,
    countRetirement_decode, if_pos ⟨rfl, rfl⟩]

theorem stepPulses_retired {s : State} (hs : s.complete = true) (v : Variant) :
    stepPulses s (retired params v s) = params.pulseTotal v := by
  rw [stepPulses, if_pos hs]
  rfl

/-- A run of retirements from a ready state is a run of the driver's events (R91, R189). -/
theorem exists_events_of_afterRetirements {n : Nat} {s t : State} (hs : s.ready)
    (h : afterRetirements n s = some t) :
    ∃ es : List Event, (∀ e ∈ es, e = .decode ∨ e = .pulse) ∧ es.count .decode = n ∧
      pulsesOfRun n s = some (es.count .pulse) ∧ ∀ k, runFrom params es s k = .going t (k + n) := by
  induction n generalizing s with
  | zero =>
    obtain ⟨-, rfl⟩ := afterRetirements_zero_eq_some.mp h
    exact ⟨[], by simp, rfl, if_pos ((observable_iff_ready s).mpr hs), fun k => runFrom_nil hs.2 k⟩
  | succ n ih =>
    cases hcode : decodeOpcode opcodeMap (s.memRead s.pc) with
    | none =>
      rw [afterRetirements_of_unassigned hs hcode] at h
      cases h
    | some v =>
      have hstep := step_of_known hs hcode
      rw [afterRetirements_succ hstep] at h
      have hready : (retired params v s).ready :=
        ⟨complete_retired params v s, (retired_fault v s).trans hs.2⟩
      obtain ⟨es, hes, hdecodes, hpulses, hrun⟩ := ih hready h
      refine ⟨roundEvents v ++ es, fun e he => ?kinds, ?decodes, ?pulses, fun k => ?run⟩
      case kinds => exact (List.mem_append.mp he).elim mem_roundEvents (hes e)
      case decodes => rw [List.count_append, count_decode_roundEvents, hdecodes, Nat.add_comm]
      case pulses =>
        rw [pulsesOfRun_succ hstep, hpulses, stepPulses_retired hs.1, List.count_append,
          count_pulse_roundEvents]
        rfl
      case run => rw [runFrom_roundEvents hs hcode, hrun, Nat.add_right_comm, Nat.add_assoc]

/-- Settles O59: a lemma above for each clause. -/
theorem finishedRunMetNoFault : Obligations.FinishedRunMetNoFault := by
  intro s
  refine ⟨fun n t h => afterRetirements_ready h, fun stop n m t h => firstBoundaryAt_spec h,
    fun n m t h hcode hlt => ?unassigned, fun hf n stop => ?faulted, fun hs => ?inside,
    fun hs n t h => ?events⟩
  case unassigned =>
    obtain ⟨k, rfl⟩ := Nat.exists_eq_add_of_lt hlt
    rw [Nat.add_assoc, afterRetirements_add h]
    exact afterRetirements_of_unassigned (afterRetirements_ready h) hcode k
  case faulted =>
    obtain ⟨f, hf⟩ := Option.ne_none_iff_exists'.mp hf
    exact ⟨afterRetirements_of_fault hf n, firstBoundaryAt_of_fault hf stop n⟩
  case inside => simp [afterRetirements, State.observable, hs]
  case events =>
    obtain ⟨es, hes, hdecodes, hpulses, hrun⟩ := exists_events_of_afterRetirements hs h
    exact ⟨es, hes, hdecodes, hpulses, (hrun 0).trans (by rw [Nat.zero_add])⟩

/-! ### RAM that holds 0 everywhere -/

/-- The step of a ready machine at a cell that holds 0 is NOP: one cell on, in 8 pulses (R120, R183). -/
theorem step_nop {s : State} (hs : s.ready) (hcell : s.memRead s.pc = 0) :
    ∃ t, step s = .next t ∧ t.ready ∧ t.pc = s.pc + 1 ∧ stepPulses s t = 8 ∧
      t.a = s.a ∧ SameFlags s t ∧ SameRam s t ∧ SamePorts s t := by
  obtain ⟨t, ht, hpc, ha, hflags, hram, hports, hfault, hop⟩ := nopOnlyAdvances s
  have hstep : step s = .next t :=
    (step_of_fetchInstr hs (fetchReadsOperandsInOrder s .nop hcell)).trans ht
  have hpulses : stepPulses s t = 8 := by
    rw [stepPulses, if_pos hs.1, State.retirementPulses, hop]
    rfl
  exact ⟨t, hstep, ⟨hop.complete, hfault.trans hs.2⟩, hpc, hpulses, ha, hflags, hram, hports⟩

/-- Settles O58: each step is NOP, and leaves RAM holding 0 everywhere. -/
theorem unloadedRamRunsNops : Obligations.UnloadedRamRunsNops := by
  intro n s hs hzero
  induction n generalizing s with
  | zero =>
    have hpulses : pulsesOfRun 0 s = some 0 := if_pos ((observable_iff_ready s).mpr hs)
    have hpc : s.pc.toNat = (s.pc.toNat + 0) % 4096 := (Nat.mod_eq_of_lt s.pc.isLt).symm
    exact ⟨hpulses, s, afterRetirements_zero_eq_some.mpr ⟨hs, rfl⟩, hpc, hs, rfl, ⟨rfl, rfl⟩,
      fun _ => rfl, rfl, rfl⟩
  | succ n ih =>
    obtain ⟨u, hstep, hready, hpc, hpulses, ha, ⟨hc, hz⟩, hram, hin, hout⟩ := step_nop hs (hzero s.pc)
    obtain ⟨hrest, t, hrun, hpc', hready', ha', ⟨hc', hz'⟩, hram', hin', hout'⟩ :=
      ih u hready fun x => (hram x).trans (hzero x)
    refine ⟨?pulses, t, (afterRetirements_succ hstep n).trans hrun, ?pc, hready', ha'.trans ha,
      ⟨hc'.trans hc, hz'.trans hz⟩, fun x => (hram' x).trans (hram x), hin'.trans hin, hout'.trans hout⟩
    case pulses =>
      rw [pulsesOfRun_succ hstep, hrest, hpulses, Option.map_some, Nat.mul_succ, Nat.add_comm]
    case pc =>
      have hu : u.pc.toNat = (s.pc.toNat + 1) % 4096 := by
        rw [hpc]
        exact addr_add_ofNat_toNat s.pc 1
      omega

/-! ### Runs of events -/

/-- A part of a run that is going is itself going, and has met no fault. -/
theorem runFrom_initial_going {cfg : Config} {p es : List Event} {s t : State} {n k : Nat}
    (hp : p <+: es) (h : runFrom cfg es s n = .going t k) :
    ∃ u j, runFrom cfg p s n = .going u j ∧ u.fault = none := by
  obtain ⟨q, rfl⟩ := hp
  rw [runFrom_append] at h
  cases hrun : runFrom cfg p s n with
  | going u j => exact ⟨u, j, rfl, (runFrom_going hrun).2⟩
  | ended f => rw [hrun] at h; cases h
  | refused r => rw [hrun] at h; cases h

/-- A run whose first part has ended has ended (R192). -/
theorem runFrom_initial_ended {cfg : Config} {p es : List Event} {s : State} {n : Nat} {f : Fault}
    (hp : p <+: es) (h : runFrom cfg p s n = .ended f) : runFrom cfg es s n = .ended f := by
  obtain ⟨q, rfl⟩ := hp
  rw [runFrom_append, h]

theorem firstStopFrom_of_stopsAt {cfg : Config} {stop : Addr} {s : State} (hs : s.stopsAt stop = true)
    (es : List Event) (n : Nat) : firstStopFrom cfg stop es s n = some (n, s) := by
  cases es <;> simp [firstStopFrom, hs]

/-- Everything a search that finds a stop point can do: stop at once, or take the next event and go on. -/
theorem firstStopFrom_cases {cfg : Config} {stop : Addr} {es : List Event} {s t : State} {n m : Nat}
    (h : firstStopFrom cfg stop es s n = some (m, t)) :
    (s.stopsAt stop = true ∧ m = n ∧ t = s) ∨
      (s.stopsAt stop = false ∧ s.fault = none ∧ ∃ e es' u, es = e :: es' ∧
        applyEvent cfg e s = .next u ∧
        firstStopFrom cfg stop es' u (countRetirement e s u n) = some (m, t)) := by
  cases hs : s.stopsAt stop with
  | true =>
    rw [firstStopFrom_of_stopsAt hs] at h
    cases h
    exact .inl ⟨rfl, rfl, rfl⟩
  | false =>
    cases es with
    | nil => simp [firstStopFrom, hs] at h
    | cons e es =>
      cases hf : s.fault with
      | some f => simp [firstStopFrom, hs, hf] at h
      | none =>
        cases he : applyEvent cfg e s with
        | next u =>
          simp only [firstStopFrom, hs, hf, he, Bool.false_eq_true, if_false, Option.isSome_none] at h
          exact .inr ⟨rfl, rfl, e, es, u, rfl, he, h⟩
        | fault f => simp [firstStopFrom, hs, hf, he] at h
        | refused r => simp [firstStopFrom, hs, hf, he] at h

/-- At a stop point the run of no events is there already, and it has no shorter part. -/
theorem runFrom_nil_of_stopsAt {cfg : Config} {stop : Addr} {s : State} (hs : s.stopsAt stop = true)
    (n : Nat) :
    runFrom cfg [] s n = .going s n ∧
      ∀ q k u, q <+: [] → q ≠ [] → runFrom cfg q s n = .going u k → u.stopsAt stop = false := by
  obtain ⟨⟨-, hf⟩, -⟩ := (stopsAt_iff s stop).mp hs
  exact ⟨runFrom_nil hf n, fun q k u hq hne => absurd (List.prefix_nil.mp hq) hne⟩

/-- The events up to the first stop point lead there, and no shorter part of them leads to one (R192). -/
theorem firstStopFrom_spec {cfg : Config} {stop : Addr} {es : List Event} {s t : State} {n m : Nat}
    (h : firstStopFrom cfg stop es s n = some (m, t)) :
    t.stopsAt stop = true ∧ ∃ p, p <+: es ∧ runFrom cfg p s n = .going t m ∧
      ∀ q k u, q <+: p → q ≠ p → runFrom cfg q s n = .going u k → u.stopsAt stop = false := by
  induction es generalizing s n with
  | nil =>
    obtain ⟨hs, rfl, rfl⟩ | ⟨-, -, _, _, _, hes, -⟩ := firstStopFrom_cases h
    · exact ⟨hs, [], List.nil_prefix, runFrom_nil_of_stopsAt hs m⟩
    · cases hes
  | cons e es ih =>
    obtain ⟨hs, rfl, rfl⟩ | ⟨hs, hf, _, _, u, hes, he, hu⟩ := firstStopFrom_cases h
    · exact ⟨hs, [], List.nil_prefix, runFrom_nil_of_stopsAt hs m⟩
    · cases hes
      obtain ⟨hstop, p, hp, hrun, hfirst⟩ := ih hu
      refine ⟨hstop, e :: p, List.cons_prefix_cons.mpr ⟨rfl, hp⟩, (runFrom_cons_next hf he p n).trans hrun,
        fun q k w hq hne hw => ?_⟩
      obtain rfl | ⟨q, rfl, hqp⟩ := List.prefix_cons_iff.mp hq
      · rw [runFrom_nil hf] at hw
        cases hw
        exact hs
      · rw [runFrom_cons_next hf he] at hw
        exact hfirst q k w hqp (fun heq => hne (by rw [heq])) hw

/-- Settles O60: a lemma above for each clause. -/
theorem eventRunFinishesOnlyWithoutFault : Obligations.EventRunFinishesOnlyWithoutFault := by
  intro cfg es
  refine ⟨fun n t h => ?finished, fun stop n t h => ?stopped, fun p f hp hended => ?ended⟩
  case finished =>
    obtain ⟨hrun, hobservable⟩ := finalAfter_eq_some.mp h
    exact ⟨(observable_iff_ready t).mp hobservable, hrun, fun p hp => runFrom_initial_going hp hrun⟩
  case stopped =>
    obtain ⟨hstop, p, hp, hrun, hfirst⟩ := firstStopFrom_spec h
    obtain ⟨hready, hpc⟩ := (stopsAt_iff t stop).mp hstop
    refine ⟨hready, hpc, p, hp,
      finalAfter_eq_some.mpr ⟨hrun, (observable_iff_ready t).mpr hready⟩, fun q k u hq hne hu hupc => ?_⟩
    obtain ⟨hqrun, hobservable⟩ := finalAfter_eq_some.mp hu
    have hno := hfirst q k u hq hne hqrun
    rw [(stopsAt_iff u stop).mpr ⟨(observable_iff_ready u).mp hobservable, hupc⟩] at hno
    cases hno
  case ended =>
    have hes : runEvents cfg es = .ended f := runFrom_initial_ended hp hended
    exact ⟨hes, fun n => by simp only [finalAfter, hes]⟩

end Sys2Proof.Machine
end
